-- ==== Sys2Proof/Word.lean ====
section
/-! DEFINITION. The widths of the machine (`spec/00_scope.md` rule R3): the 32-bit word, the 16-bit instruction
address, and the fields of an instruction word (`spec/30_encoding.md` rules R84 to R90). -/

namespace Sys2Proof

/-- A register, an ALU result, a data word (XLEN = 32, rule R20, decision D1) or an instruction word (rule R80). -/
abbrev Word := BitVec 32

/-- An instruction address: the width of `pc`, `ipc` and of a branch or jump target (PCW = 16, rules R42, R89). -/
abbrev Addr := BitVec 16

/-- The immediate field of an instruction (IMMW = 16, rule R88). -/
abbrev Imm := BitVec 16

/-- A register number, 0 to 63, as a field of an instruction (rules R20, R84, R85). -/
abbrev RegNum := BitVec 6

/-- The shift amount field, 0 to 15 (SHW = 4, rule R90). -/
abbrev Shamt := BitVec 4

end Sys2Proof
end

