-- ==== Sys2Proof/Syntax.lean ====
section
/-! DEFINITION. The instructions of RISCKER: one constructor for each of the 30 rows of `spec/opcode_table.json`, with
the fields the row gives (`spec/30_encoding.md` rules R82 to R93). A field keeps the name the spec gives it: `rd`, `rs`,
`rt` are field names, and in `sw`, `blt` and `beq` the `rd` field names a source. -/

namespace Sys2Proof

/-- One instruction. -/
inductive Instr
  /-- `x[rd] <- x[rs] + x[rt]` (rule R112). -/
  | add (rd rs rt : RegNum)
  /-- `x[rd] <- x[rs] & x[rt]` (rule R113). -/
  | and (rd rs rt : RegNum)
  /-- `x[rd] <- x[rs] | x[rt]` (rule R114). -/
  | or (rd rs rt : RegNum)
  /-- `x[rd] <- x[rs] ^ x[rt]` (rule R115). -/
  | xor (rd rs rt : RegNum)
  /-- `x[rd] <- ~(x[rs] & x[rt])` (rule R116). -/
  | nand (rd rs rt : RegNum)
  /-- `x[rd] <- ~(x[rs] | x[rt])` (rule R117). -/
  | nor (rd rs rt : RegNum)
  /-- `x[rd] <- x[rs] - x[rt]` (rule R118). -/
  | sub (rd rs rt : RegNum)
  /-- `x[rd] <- 0 - x[rt]`: the assembler's spelling of `sub rd, r0, rt`; no word decodes to it (rules R92, R119). -/
  | neg (rd rt : RegNum)
  /-- `x[rd] <- x[rs] + 1` (rule R120). -/
  | inc (rd rs : RegNum)
  /-- `x[rd][15:0] <- x[rs][7:0] * x[rt][7:0]` (rule R133). -/
  | mult (rd rs rt : RegNum)
  /-- `x[rd] <- {x[rs][15:0] / x[rt][15:0], x[rs][15:0] % x[rt][15:0]}` (rule R134). -/
  | div (rd rs rt : RegNum)
  /-- `x[rd] <- x[rt]` rotated left by `shamt` (rule R151). -/
  | rot (rd rt : RegNum) (shamt : Shamt)
  /-- `x[rd] <- x[rt] << shamt` (rule R152). -/
  | sll (rd rt : RegNum) (shamt : Shamt)
  /-- `x[rd] <- x[rt] >> shamt`, zeros entering (rule R153). -/
  | srl (rd rt : RegNum) (shamt : Shamt)
  /-- `x[rd] <- x[rt] >> shamt`, the sign entering (rule R154). -/
  | sra (rd rt : RegNum) (shamt : Shamt)
  /-- `pc <- target` (rule R182). -/
  | j (target : Addr)
  /-- `DMem[x[rs] + imm] <- x[rd]` (rule R170). -/
  | sw (rd rs : RegNum) (imm : Imm)
  /-- `x[rd] <- DMem[x[rs] + imm]` (rule R171). -/
  | lw (rd rs : RegNum) (imm : Imm)
  /-- `pc <- target` if bit 31 of `x[rd] - x[rs]` is 1 (rule R180). -/
  | blt (rd rs : RegNum) (target : Addr)
  /-- `pc <- target` if `x[rd] = x[rs]` (rule R181). -/
  | beq (rd rs : RegNum) (target : Addr)
  /-- `pc <- x[rs]`, `x[rd] <- imm` (rule R183). -/
  | jriw (rd rs : RegNum) (imm : Imm)
  /-- `x[rd] <- pc + 1`, `pc <- target` (rule R184). -/
  | jal (rd : RegNum) (target : Addr)
  /-- `x[rd] <- x[rs] + imm` (rule R161). -/
  | addi (rd rs : RegNum) (imm : Imm)
  /-- `x[rd] <- x[rs] & imm` (rule R162). -/
  | andi (rd rs : RegNum) (imm : Imm)
  /-- `x[rd] <- x[rs] | imm` (rule R163). -/
  | ori (rd rs : RegNum) (imm : Imm)
  /-- `x[rd] <- x[rs] ^ imm` (rule R164). -/
  | xori (rd rs : RegNum) (imm : Imm)
  /-- `x[rd] <- ~(x[rs] & imm)` (rule R165). -/
  | nandi (rd rs : RegNum) (imm : Imm)
  /-- `x[rd] <- ~(x[rs] | imm)` (rule R166). -/
  | nori (rd rs : RegNum) (imm : Imm)
  /-- `x[rd] <- x[rs][15:0] * imm` (rule R135). -/
  | multi (rd rs : RegNum) (imm : Imm)
  /-- `x[rd] <- {x[rs][15:0] / imm, x[rs][15:0] % imm}` (rule R136). -/
  | divi (rd rs : RegNum) (imm : Imm)
  deriving DecidableEq, Repr

/-- Why a word is no instruction (rule R94: the five kinds of words the spec gives no meaning). -/
inductive InvalidEncoding
  /-- Opcode 0000 with a function code that rule R91 does not list. -/
  | unlistedFunction
  /-- `inc` with its `rt` field not 0. -/
  | incRtNotZero
  /-- A shift or rotate with its `rs` field not 0. -/
  | shiftRsNotZero
  /-- `j` with word[27:16] not 0. -/
  | jUnusedNotZero
  /-- `jal` with word[21:16] not 0. -/
  | jalUnusedNotZero
  deriving DecidableEq, Repr

end Sys2Proof
end

