-- ==== Sys2Proof/WellFormed.lean ====
section
/-! DEFINITION. Which instruction terms are machine instructions. The fields of an instruction have the widths of the
encoding, so every field value fits; the one term that is no machine instruction is the assembler's `neg`
(`spec/30_encoding.md` rule R92: "`neg` is not a machine instruction of its own"). -/

namespace Sys2Proof

/-- The machine instruction an instruction term stands for: itself, but `neg rd, rt` is `sub rd, r0, rt` (rule R92). -/
def Instr.canonical : Instr → Instr
  | .neg rd rt => .sub rd 0 rt
  | i => i

/-- The check that a term is not the assembler's second spelling of another instruction (rule R92). -/
def Instr.isMachineInstr (i : Instr) : Bool := decide (i.canonical = i)

/-- A term is well formed when it is a machine instruction: then it is what the decoder reads from its own word. -/
def Instr.wellFormed (i : Instr) : Bool := i.isMachineInstr

end Sys2Proof
end

