-- ==== Sys2Proof/Decode.lean ====
section
/-! DEFINITION. The decoder (`spec/30_encoding.md` rules R80 to R96), total on any 32-bit word, and after it the
encoder, written from the same tables. The architecture has no bytes: both memories are addressed by whole words
(`spec/20_memory.md` rule R68), so the decoder's input is one word. -/

namespace Sys2Proof

/-! ## The fields of a word (rules R84 to R90) -/

/-- word[31:28]. -/
def fieldOpcode (w : Word) : BitVec 4 := w.extractLsb' 28 4
/-- word[27:22]. -/
def fieldRd (w : Word) : RegNum := w.extractLsb' 22 6
/-- word[21:16]. -/
def fieldRs (w : Word) : RegNum := w.extractLsb' 16 6
/-- word[15:10]. -/
def fieldRt (w : Word) : RegNum := w.extractLsb' 10 6
/-- word[9:0]. -/
def fieldFunct (w : Word) : BitVec 10 := w.extractLsb' 0 10
/-- word[15:0], the immediate or the target. -/
def fieldImm (w : Word) : Imm := w.extractLsb' 0 16
/-- word[9:6]: 0001 in every function code of a shift, and in no other that rule R91 lists. -/
def fieldSelect (w : Word) : BitVec 4 := w.extractLsb' 6 4
/-- word[5:4], the shift mode of rule R87. -/
def fieldShiftMode (w : Word) : BitVec 2 := w.extractLsb' 4 2
/-- word[3:0]. -/
def fieldShamt (w : Word) : Shamt := w.extractLsb' 0 4

/-! ## Decoding (rule R96) -/

/-- The shifts and the rotate, function codes 0x040 to 0x07F (rule R91). -/
def decodeShift (w : Word) : Except InvalidEncoding Instr :=
  if fieldRs w ≠ 0 then .error .shiftRsNotZero
  else if fieldShiftMode w = 0b00#2 then .ok (.rot (fieldRd w) (fieldRt w) (fieldShamt w))
  else if fieldShiftMode w = 0b01#2 then .ok (.sll (fieldRd w) (fieldRt w) (fieldShamt w))
  else if fieldShiftMode w = 0b10#2 then .ok (.srl (fieldRd w) (fieldRt w) (fieldShamt w))
  else .ok (.sra (fieldRd w) (fieldRt w) (fieldShamt w))

/-- Opcode 0000: the register format, by its function code (rule R91). -/
def decodeRegister (w : Word) : Except InvalidEncoding Instr :=
  if fieldSelect w = 0b0001#4 then decodeShift w
  else if fieldFunct w = 0x000#10 then .ok (.add (fieldRd w) (fieldRs w) (fieldRt w))
  else if fieldFunct w = 0x001#10 then .ok (.and (fieldRd w) (fieldRs w) (fieldRt w))
  else if fieldFunct w = 0x002#10 then .ok (.or (fieldRd w) (fieldRs w) (fieldRt w))
  else if fieldFunct w = 0x003#10 then .ok (.xor (fieldRd w) (fieldRs w) (fieldRt w))
  else if fieldFunct w = 0x004#10 then .ok (.nand (fieldRd w) (fieldRs w) (fieldRt w))
  else if fieldFunct w = 0x005#10 then .ok (.nor (fieldRd w) (fieldRs w) (fieldRt w))
  else if fieldFunct w = 0x006#10 then .ok (.sub (fieldRd w) (fieldRs w) (fieldRt w))
  else if fieldFunct w = 0x007#10 then
    if fieldRt w = 0 then .ok (.inc (fieldRd w) (fieldRs w)) else .error .incRtNotZero
  else if fieldFunct w = 0x088#10 then .ok (.mult (fieldRd w) (fieldRs w) (fieldRt w))
  else if fieldFunct w = 0x0C9#10 then .ok (.div (fieldRd w) (fieldRs w) (fieldRt w))
  else .error .unlistedFunction

/-- Opcode 0001 (rules R86, R94): word[27:16] must be 0. -/
def decodeJ (w : Word) : Except InvalidEncoding Instr :=
  if fieldRd w = 0 ∧ fieldRs w = 0 then .ok (.j (fieldImm w)) else .error .jUnusedNotZero

/-- Opcode 0111 (rules R86, R94): word[21:16] must be 0. -/
def decodeJal (w : Word) : Except InvalidEncoding Instr :=
  if fieldRs w = 0 then .ok (.jal (fieldRd w) (fieldImm w)) else .error .jalUnusedNotZero

/-- The decoder: every word is one instruction or invalid, by name (rules R83, R96). It never answers `neg`. -/
def decode (w : Word) : Except InvalidEncoding Instr :=
  if fieldOpcode w = 0x0#4 then decodeRegister w
  else if fieldOpcode w = 0x1#4 then decodeJ w
  else if fieldOpcode w = 0x2#4 then .ok (.sw (fieldRd w) (fieldRs w) (fieldImm w))
  else if fieldOpcode w = 0x3#4 then .ok (.lw (fieldRd w) (fieldRs w) (fieldImm w))
  else if fieldOpcode w = 0x4#4 then .ok (.blt (fieldRd w) (fieldRs w) (fieldImm w))
  else if fieldOpcode w = 0x5#4 then .ok (.beq (fieldRd w) (fieldRs w) (fieldImm w))
  else if fieldOpcode w = 0x6#4 then .ok (.jriw (fieldRd w) (fieldRs w) (fieldImm w))
  else if fieldOpcode w = 0x7#4 then decodeJal w
  else if fieldOpcode w = 0x8#4 then .ok (.addi (fieldRd w) (fieldRs w) (fieldImm w))
  else if fieldOpcode w = 0x9#4 then .ok (.andi (fieldRd w) (fieldRs w) (fieldImm w))
  else if fieldOpcode w = 0xA#4 then .ok (.ori (fieldRd w) (fieldRs w) (fieldImm w))
  else if fieldOpcode w = 0xB#4 then .ok (.xori (fieldRd w) (fieldRs w) (fieldImm w))
  else if fieldOpcode w = 0xC#4 then .ok (.nandi (fieldRd w) (fieldRs w) (fieldImm w))
  else if fieldOpcode w = 0xD#4 then .ok (.nori (fieldRd w) (fieldRs w) (fieldImm w))
  else if fieldOpcode w = 0xE#4 then .ok (.multi (fieldRd w) (fieldRs w) (fieldImm w))
  else .ok (.divi (fieldRd w) (fieldRs w) (fieldImm w))

/-- The word of an instruction whose bits are `w`, bit 0 the least significant; a bit from `nbits` up is 0. -/
def tableWord (nbits w : Nat) : Word := BitVec.ofNat 32 (w % 2 ^ nbits)

/-- The instruction the decoder reads from the bits `w` of an opcode-table row (every row has 32 bits, rule R80). -/
def decodeTableWord (nbits w : Nat) : Option Instr :=
  match decode (tableWord nbits w) with
  | .ok i => some i
  | .error _ => none

/-! ## Encoding -/

/-- R format (rule R84): opcode 0000, rd, rs, rt, funct. -/
def encodeR (rd rs rt : RegNum) (funct : BitVec 10) : Word := 0x0#4 ++ rd ++ rs ++ rt ++ funct

/-- The function code of a shift: select 01, the shift mode, the amount (rules R87, R91). -/
def shiftFunct (mode : BitVec 2) (shamt : Shamt) : BitVec 10 := 0b0001#4 ++ mode ++ shamt

/-- I format (rule R85): opcode, rd, rs, imm. -/
def encodeI (opcode : BitVec 4) (rd rs : RegNum) (imm : Imm) : Word := opcode ++ rd ++ rs ++ imm

/-- J format (rule R86): opcode, rd, six zeros, target. -/
def encodeJ (opcode : BitVec 4) (rd : RegNum) (target : Addr) : Word := opcode ++ rd ++ 0#6 ++ target

/-- The word of an instruction; a field the instruction does not use is 0 (rule R93), and `neg` has the word of
`sub` with `rs` = 0 (rule R92). -/
def encode : Instr → Word
  | .add rd rs rt => encodeR rd rs rt 0x000#10
  | .and rd rs rt => encodeR rd rs rt 0x001#10
  | .or rd rs rt => encodeR rd rs rt 0x002#10
  | .xor rd rs rt => encodeR rd rs rt 0x003#10
  | .nand rd rs rt => encodeR rd rs rt 0x004#10
  | .nor rd rs rt => encodeR rd rs rt 0x005#10
  | .sub rd rs rt => encodeR rd rs rt 0x006#10
  | .neg rd rt => encodeR rd 0 rt 0x006#10
  | .inc rd rs => encodeR rd rs 0 0x007#10
  | .mult rd rs rt => encodeR rd rs rt 0x088#10
  | .div rd rs rt => encodeR rd rs rt 0x0C9#10
  | .rot rd rt shamt => encodeR rd 0 rt (shiftFunct 0b00#2 shamt)
  | .sll rd rt shamt => encodeR rd 0 rt (shiftFunct 0b01#2 shamt)
  | .srl rd rt shamt => encodeR rd 0 rt (shiftFunct 0b10#2 shamt)
  | .sra rd rt shamt => encodeR rd 0 rt (shiftFunct 0b11#2 shamt)
  | .j target => encodeJ 0x1#4 0 target
  | .sw rd rs imm => encodeI 0x2#4 rd rs imm
  | .lw rd rs imm => encodeI 0x3#4 rd rs imm
  | .blt rd rs target => encodeI 0x4#4 rd rs target
  | .beq rd rs target => encodeI 0x5#4 rd rs target
  | .jriw rd rs imm => encodeI 0x6#4 rd rs imm
  | .jal rd target => encodeJ 0x7#4 rd target
  | .addi rd rs imm => encodeI 0x8#4 rd rs imm
  | .andi rd rs imm => encodeI 0x9#4 rd rs imm
  | .ori rd rs imm => encodeI 0xA#4 rd rs imm
  | .xori rd rs imm => encodeI 0xB#4 rd rs imm
  | .nandi rd rs imm => encodeI 0xC#4 rd rs imm
  | .nori rd rs imm => encodeI 0xD#4 rd rs imm
  | .multi rd rs imm => encodeI 0xE#4 rd rs imm
  | .divi rd rs imm => encodeI 0xF#4 rd rs imm

end Sys2Proof
end

