-- ==== Sys2Proof/Config.lean ====
section
/-! DEFINITION. What an implementation of RISCKER fixes (`spec/00_scope.md` rule R3) and what the spec leaves without
a value. A parameter whose value several rules read is a field of `Params`, which the state carries and no step
changes, so that a statement about every state is a statement about every choice. A value the spec leaves free is an
opaque constant: it has no body, so no proof can learn what it is. -/

namespace Sys2Proof.Config

open Sys2Proof

/-- The four interrupt sources (`spec/60_exceptions.md` rule R201): timer 1, timer 2, external 1, external 2. -/
inductive Source
  | t1 | t2 | e1 | e2
  deriving DecidableEq, Repr

/-- Every source, in the order of the table of rule R201. -/
def Source.all : List Source := [.t1, .t2, .e1, .e2]

/-- The two timers (rule R214). -/
inductive TimerId
  | one | two
  deriving DecidableEq, Repr

/-- The two external interrupt lines (rule R218). -/
inductive LineId
  | one | two
  deriving DecidableEq, Repr

/-- What an agent other than the core can do between two instructions (`spec/00_scope.md` rule R5). `latch` is the
outcome where rule R203 admits two: does the event of a source whose enable bit is 0 set the source's flag? -/
inductive Event
  /-- A tick of a timer (`spec/60_exceptions.md` rule R216). -/
  | tick (n : TimerId) (latch : Bool)
  /-- An event of an external interrupt line (rule R218). -/
  | external (n : LineId) (latch : Bool)
  deriving DecidableEq, Repr

/-- Who takes the next step: the core, or the environment with an event (rules R5, R9). -/
inductive Turn
  | core
  | env (e : Event)
  deriving DecidableEq, Repr, Inhabited

/-- `RC_RST_MODE`: do the reset bits of `rc` act while they are 1 (`level`) or once, when written (`pulse`)?
(`spec/10_state.md` rules R38, R41, decision D23.) -/
inductive RstMode
  | level | pulse
  deriving DecidableEq, Repr

/-- The open parameters of rule R3 that rules of the machine read. -/
structure Params where
  /-- `IMEM_WORDS`, at most 65536 (rule R61). -/
  imemWords : Nat
  /-- `DMEM_WORDS`, at most 65536 (rule R62). -/
  dmemWords : Nat
  /-- `TIMER_BITS`, at most XLEN (rule R214). -/
  timerBits : Nat
  /-- `RC_RST_MODE` (decision D23). -/
  rstMode : RstMode
  /-- `INT_PRIORITY`, the source served first standing first (rule R208). A source the list leaves out comes after
  those it names, in the order of `Source.all`, and only a source's first place counts: so every list is a total
  order of the four sources and every total order is one of the lists. -/
  priority : List Source
  /-- `RESET_PC` (`spec/70_reset_and_hazards.md` rule R242). -/
  resetPc : Addr
  /-- `RESET_RC` (`spec/10_state.md` rule R49). -/
  resetRc : Word
  deriving DecidableEq, Repr

/-- `DIV0` (`spec/41_mult_div.md` rule R132): what a division by zero delivers, a function of the dividend alone.
Free value. -/
opaque div0 : BitVec 16 → Word

/-- `INT_PRIORITY` of the machine that `State.reset` describes: the spec gives no default (decision D28). Free value. -/
opaque intPriority : List Source

/-- What the input port shows at its n-th sample when the environment's own list of samples is at its end
(`spec/10_state.md` rule R35: "a free XLEN-bit value per read, under no law"). Free value. -/
opaque inputPort : Nat → Word

/-- What a load of a data word that nothing has written delivers, by its address (`spec/20_memory.md` rule R77: an
arbitrary draw). Free value. -/
opaque unwrittenWord : Nat → Word

/-- Whose turn the n-th step is when the state's own list of turns is at its end: the core's, or an event's, at any
rate and in any order (`spec/00_scope.md` rule R9, decisions D24, D25). Free value. -/
opaque environment : Nat → Turn

/-- `PRESCALE`: the division ratio of each value of a prescaler field, in no source and without a default (rule R3). No
rule of the machine reads it (`spec/60_exceptions.md` rule R219). Free value. -/
opaque prescale : BitVec 2 → Nat

/-- The parameters at the defaults of rule R3; `INT_PRIORITY` has none and stays free (decisions D6, D22, D23, D29). -/
def defaults : Params where
  imemWords := 65536
  dmemWords := 65536
  timerBits := 32
  rstMode := .level
  priority := intPriority
  resetPc := 0
  resetRc := 0

end Sys2Proof.Config
end

