-- ==== Sys2Proof/Machine/State.lean ====
section
/-! DEFINITION. The state of the machine as plain data (`spec/10_state.md`), the reasons a step can stop, and the state
right after reset (rule R49). INVENTORY.md lists every field with its rule and its reset value. -/

namespace Sys2Proof.Machine

open Sys2Proof Sys2Proof.Config

/-- A memory: the words it holds, by address, addresses strictly rising (`Memory.wf`). The smallest unit of both
memories is the 32-bit word (`spec/20_memory.md` rules R61, R62, R68); an unlisted address holds no value. -/
abbrev Memory := List (Nat × Word)

/-- The four interrupt pending flags (rule R45). -/
structure Pending where
  /-- `IF_T1`. -/
  t1 : Bool
  /-- `IF_T2`. -/
  t2 : Bool
  /-- `IF_E1`. -/
  e1 : Bool
  /-- `IF_E2`. -/
  e2 : Bool
  deriving DecidableEq, Repr

/-- The state of the machine. -/
structure State where
  /-- Registers 1 to 57, number i at index i - 1: rv0-rv7, rp0-rp7, rt0-rt7, rg0-rg21, ra0-ra3, sp, pr1, pr2, ti1, ti2,
  eir1, eir2 (rules R20, R25). Register 0 is not stored: it reads 0 (rule R26). -/
  regs : Vector Word 57
  /-- Register 58, the output port (rule R33). -/
  op : Word
  /-- Register 59, the control register (rules R37 to R41). -/
  rc : Word
  /-- Register 60, the counter of timer 1 (rule R34). -/
  tmr1 : Word
  /-- Register 61, the counter of timer 2 (rule R34). -/
  tmr2 : Word
  /-- Register 63, the program counter saved at interrupt entry (rule R36). -/
  ipc : Addr
  /-- The program counter (rule R42). -/
  pc : Addr
  /-- The four pending flags (rule R45). -/
  pending : Pending
  /-- `INS`, an interrupt is in service (rule R47). -/
  ins : Bool
  /-- The data memory (rule R62). -/
  dmem : Memory
  /-- The instruction memory (rule R61): the program. No step changes it. -/
  imem : Memory
  /-- The output events `Out(v)` so far, the first one first (rules R6, R33). -/
  outputs : List Word
  /-- The model's own: the samples the environment will show at the input port, one for each coming instruction
  (rule R35); at its end the samples are the free `Config.inputPort`. -/
  portIn : List Word
  /-- The model's own: how many instructions have completed, the index of the next free sample of the input port. -/
  portDraws : Nat
  /-- The model's own: whose turn it is, the next one first (rules R5, R9); at its end the turns are the free
  `Config.environment`. -/
  schedule : List Turn
  /-- The model's own: how many turns have been taken, the index of the next free turn. -/
  turnDraws : Nat
  /-- The parameters of the implementation (rule R3). No step changes them. -/
  params : Params
  deriving DecidableEq, Repr

/-- Why a step stops with a fault: never. The hardware raises no synchronous exception and stops on none
(`spec/60_exceptions.md` rule R200). -/
inductive Fault
  deriving DecidableEq, Repr

/-- Why the model declines a step: the five reasons of `spec/93_implementation_defined.md` section 2. None is a
behaviour of the chip, and each is safe: where the model refuses, nothing can be proved of the chip. -/
inductive Refusal
  /-- An instruction without a meaning; raised by no arm of `exec` of this model. Safe. -/
  | notModelled (mnemonic : String)
  /-- `undefined_encoding`, raised by the step when the decoder refuses the fetched word (rule R94). Safe. -/
  | undefinedEncoding (why : InvalidEncoding)
  /-- `data_address_out_of_range`, raised by `lw` and `sw` (rule R65). Safe. -/
  | dataAddressOutOfRange
  /-- `fetch_out_of_range`, raised by the step's fetch (rules R75, R77, R244). Safe. -/
  | fetchOutOfRange
  /-- `jump_target_out_of_range`, raised by `jriw` (rule R183). Safe. -/
  | jumpTargetOutOfRange
  /-- `vector_out_of_range`, raised by the interrupt entry (rule R207). Safe. -/
  | vectorOutOfRange
  deriving DecidableEq, Repr

/-- What a step, or an instruction, answers. -/
abbrev Result := Host.Outcome State Fault Refusal

/-! ## Field updates -/

/-- Register number i + 1 holds `v`. -/
def State.setStored (s : State) (i : Fin 57) (v : Word) : State := { s with regs := s.regs.set i v }
/-- Register 58 holds `v`, and `Out(v)` is emitted (rule R33). -/
def State.emitOp (s : State) (v : Word) : State := { s with op := v, outputs := s.outputs ++ [v] }
/-- Register 59 holds `v`; the effects a write of `rc` has on other state are `State.writeRc`'s. -/
def State.setRc (s : State) (v : Word) : State := { s with rc := v }
/-- The counters of the two timers. -/
def State.setTimers (s : State) (v1 v2 : Word) : State := { s with tmr1 := v1, tmr2 := v2 }
/-- The pending flags. -/
def State.setPending (s : State) (p : Pending) : State := { s with pending := p }
/-- The in-service bit. -/
def State.setIns (s : State) (b : Bool) : State := { s with ins := b }
/-- The program counter. -/
def State.setPc (s : State) (a : Addr) : State := { s with pc := a }
/-- The saved program counter. -/
def State.setIpc (s : State) (a : Addr) : State := { s with ipc := a }
/-- The data memory. -/
def State.setDmem (s : State) (m : Memory) : State := { s with dmem := m }
/-- The instruction memory. -/
def State.setImem (s : State) (m : Memory) : State := { s with imem := m }
/-- The turns to come. -/
def State.setSchedule (s : State) (l : List Turn) : State := { s with schedule := l }
/-- The next turn is taken. -/
def State.takeTurn (s : State) : State := { s with schedule := s.schedule.tail, turnDraws := s.turnDraws + 1 }
/-- The input port goes on to its next sample. -/
def State.nextSample (s : State) : State := { s with portIn := s.portIn.tail, portDraws := s.portDraws + 1 }

/-- The start of a run (rules R49, R241, R244): an implementation with the parameters `p`, with the host's image in its
two memories. `pc`, `rc`, the flags and `INS` are as the spec states them. The spec gives every other register no value;
the model names 0 for each (DESIGN CHOICE, unsafe: assumption log 1). The model's own fields are empty (log 5, 6). -/
def State.launch (p : Params) (program data : Memory) : State where
  regs := Vector.replicate 57 0
  op := 0
  rc := p.resetRc
  tmr1 := 0
  tmr2 := 0
  ipc := 0
  pc := p.resetPc
  pending := ⟨false, false, false, false⟩
  ins := false
  dmem := data
  imem := program
  outputs := []
  portIn := []
  portDraws := 0
  schedule := []
  turnDraws := 0
  params := p

/-- The machine right after reset: the start of a run with the parameters at their defaults and no image loaded. -/
def State.reset : State := State.launch defaults [] []

end Sys2Proof.Machine
end

