-- ==== Sys2Proof/Machine/Operands.lean ====
section
/-! DEFINITION. The operands of an instruction: what a register number names (`spec/10_state.md` rule R20), how an
immediate is widened (`spec/30_encoding.md` rule R88), the parts of a register that the multiplier and the divider take
(`spec/41_mult_div.md`), and the one addressing mode (`spec/20_memory.md` rule R64). -/

namespace Sys2Proof.Machine

open Sys2Proof Sys2Proof.Config

/-- What a register number names (rules R20 to R25). -/
inductive RegClass
  /-- Number 0, the constant zero (rule R26). -/
  | zero
  /-- Numbers 1 to 57, which hold the last value written; number n has index n - 1. -/
  | stored (i : Fin 57)
  /-- Number 58, the output port. -/
  | op
  /-- Number 59, the control register. -/
  | rc
  /-- Numbers 60 and 61, the timer counters. -/
  | tmr1 | tmr2
  /-- Number 62, the input port. -/
  | ip
  /-- Number 63, the saved program counter. -/
  | ipc
  deriving DecidableEq, Repr

/-- The register that a number names (Tabla 3, rule R20). -/
def classify (r : RegNum) : RegClass :=
  if r = 0 then .zero
  else if h : r.toNat - 1 < 57 then .stored ⟨r.toNat - 1, h⟩
  else if r = 58 then .op
  else if r = 59 then .rc
  else if r = 60 then .tmr1
  else if r = 61 then .tmr2
  else if r = 62 then .ip
  else .ipc

/-- The register numbers that the machine itself uses (rules R30 to R32, R37). -/
def regOp : RegNum := 58
/-- The number of `rc`. -/
def regRc : RegNum := 59
/-- The number of `ip`. -/
def regIp : RegNum := 62
/-- The number of `ipc`. -/
def regIpc : RegNum := 63

/-- The register with a timer's period: pr1, pr2 (rule R30). -/
def periodReg : TimerId → RegNum
  | .one => 52
  | .two => 53

/-- The register with a source's service address: ti1, ti2, eir1, eir2 (`spec/60_exceptions.md` rule R201). -/
def vectorReg : Source → RegNum
  | .t1 => 54
  | .t2 => 55
  | .e1 => 56
  | .e2 => 57

/-- `sext_XLEN(imm)`: the immediate of addi, andi, ori, xori, nandi, nori, lw, sw and jriw (rule R88, decision D7). -/
def signedImm (imm : Imm) : Word := imm.signExtend 32

/-- `x[15:0]`, an operand of `div`, `multi` and `divi`. -/
def lowHalf (x : Word) : BitVec 16 := x.setWidth 16

/-- `x[7:0]` as the multiplier's 16-bit operand, for `mult` (`spec/41_mult_div.md` rule R133, `90_conflicts.md` C3). -/
def lowByte (x : Word) : BitVec 16 := (x.setWidth 8).setWidth 16

/-- `(base + sext(imm)) mod 2^XLEN` (rule R64). -/
def effectiveAddr (base : Word) (imm : Imm) : Word := base + signedImm imm

end Sys2Proof.Machine
end

