-- ==== Sys2Proof/Machine/Alu.lean ====
section
/-! DEFINITION. The units that compute a result: the ALU and the shifter, by the function codes of
`spec/30_encoding.md` rule R87, the multiplier and the divider (`spec/41_mult_div.md` rules R130 to R132). -/

namespace Sys2Proof.Machine

open Sys2Proof

/-- The aluop codes 000 to 111 (rule R87). -/
inductive AluOp
  | add | and | or | xor | nand | nor | sub | inc
  deriving DecidableEq, Repr

/-- The ALU, on all XLEN bits; arithmetic is modulo 2^XLEN and nothing overflows (`spec/40_alu_register.md` rule R111).
`inc` takes only its first operand. -/
def alu (f : AluOp) (a b : Word) : Word :=
  match f with
  | .add => a + b
  | .and => a &&& b
  | .or => a ||| b
  | .xor => a ^^^ b
  | .nand => ~~~(a &&& b)
  | .nor => ~~~(a ||| b)
  | .sub => a - b
  | .inc => a + 1

/-- The shift_mode codes 00 to 11 (rule R87). -/
inductive ShiftMode
  | rot | sll | srl | sra
  deriving DecidableEq, Repr

/-- The shifter, on all XLEN bits, by 0 to 15 places (`spec/42_shift_rotate.md` rules R150 to R154). -/
def shifter (mode : ShiftMode) (a : Word) (shamt : Shamt) : Word :=
  match mode with
  | .rot => a.rotateLeft shamt.toNat
  | .sll => a <<< shamt.toNat
  | .srl => a >>> shamt.toNat
  | .sra => a.sshiftRight shamt.toNat

/-- The multiplier: the exact product of two unsigned 16-bit operands (rule R130). -/
def multiplier (a b : BitVec 16) : Word := BitVec.ofNat 32 (a.toNat * b.toNat)

/-- The divider: the quotient in bits 31:16 and the remainder in bits 15:0 (rules R131, R134, decision D14); for a
divisor 0 the free `Config.div0` of the dividend (rule R132). -/
def divider (a b : BitVec 16) : Word :=
  if b = 0 then Config.div0 a
  else BitVec.ofNat 16 (a.toNat / b.toNat) ++ BitVec.ofNat 16 (a.toNat % b.toNat)

/-! ## The two units as the source describes their circuits

No rule depends on these (rule R137); the statements say that they compute what the units above deliver. -/

/-- The array multiplier of rule R130: one row for each bit of `b`, the bit ANDed with `a`, the rows added with a
shift. `n` rows. -/
def arrayMultiply : Nat → Nat → Nat → Nat
  | 0, _, _ => 0
  | n + 1, a, b => (if b.testBit n then a <<< n else 0) + arrayMultiply n a b

/-- One stage of the restoring divider of rule R137: the partial remainder is doubled and takes the dividend's next bit;
if the divisor fits, the quotient bit is 1 and the difference is kept, else it is 0 and the difference is discarded. -/
def divStage (b bit : Nat) (qr : Nat × Nat) : Nat × Nat :=
  let r := 2 * qr.2 + bit
  if b ≤ r then (2 * qr.1 + 1, r - b) else (2 * qr.1, r)

/-- `n` stages of the divider over the dividend's `n` low bits, the highest first: (quotient, remainder). -/
def restoringDivide : Nat → Nat → Nat → Nat × Nat → Nat × Nat
  | 0, _, _, qr => qr
  | n + 1, a, b, qr => restoringDivide n a b (divStage b (a.testBit n).toNat qr)

end Sys2Proof.Machine
end

