-- ==== Sys2Proof/Machine/Flags.lean ====
section
/-! DEFINITION. The bits of the control register `rc` (`spec/10_state.md` rules R37 to R41) and the four interrupt
pending flags (rule R45). The machine has no condition codes and no arithmetic flags (rule R44), so no instruction
computes one. -/

namespace Sys2Proof.Machine

open Sys2Proof Sys2Proof.Config

/-! ## The bits of `rc` -/

/-- TIRST1, TIRST2, EIRST1, EIRST2: bits 0 to 3 (rule R38). -/
def flagResetBit (rc : Word) : Source → Bool
  | .t1 => rc.getLsbD 0
  | .t2 => rc.getLsbD 1
  | .e1 => rc.getLsbD 2
  | .e2 => rc.getLsbD 3

/-- TIE1, TIE2, EIE1, EIE2: bits 4 to 7 (rule R39). -/
def intEnableBit (rc : Word) : Source → Bool
  | .t1 => rc.getLsbD 4
  | .t2 => rc.getLsbD 5
  | .e1 => rc.getLsbD 6
  | .e2 => rc.getLsbD 7

/-- PR1, PR2: bits 9:8 and 11:10, stored and read back; no rule of the machine reads them (rules R40, R219). -/
def prescalerField (rc : Word) : TimerId → BitVec 2
  | .one => rc.extractLsb' 8 2
  | .two => rc.extractLsb' 10 2

/-- The division ratio a timer's prescaler field selects (rule R3); no rule of the machine reads it (rule R219). -/
def prescaleRatio (rc : Word) (n : TimerId) : Nat := prescale (prescalerField rc n)

/-- TMRE1, TMRE2: bits 12 and 13 (rule R41). -/
def timerEnableBit (rc : Word) : TimerId → Bool
  | .one => rc.getLsbD 12
  | .two => rc.getLsbD 13

/-- TRST1, TRST2: bits 14 and 15 (rule R41). -/
def timerResetBit (rc : Word) : TimerId → Bool
  | .one => rc.getLsbD 14
  | .two => rc.getLsbD 15

/-- Is any of bits 3:0 of a value written to `rc` 1? Then the write raises Retfi (`spec/60_exceptions.md` rule R210). -/
def raisesRetfi (v : Word) : Bool :=
  flagResetBit v .t1 || flagResetBit v .t2 || flagResetBit v .e1 || flagResetBit v .e2

/-! ## The pending flags -/

/-- The flag of a source. -/
def Pending.get (p : Pending) : Source → Bool
  | .t1 => p.t1
  | .t2 => p.t2
  | .e1 => p.e1
  | .e2 => p.e2

/-- The flags with the flag of one source set to 1. -/
def Pending.raise (p : Pending) : Source → Pending
  | .t1 => { p with t1 := true }
  | .t2 => { p with t2 := true }
  | .e1 => { p with e1 := true }
  | .e2 => { p with e2 := true }

/-- The flags after a write of `v` to `rc`: a flag whose reset bit is 1 becomes 0 (rule R204). -/
def Pending.clearedBy (p : Pending) (v : Word) : Pending where
  t1 := p.t1 && !flagResetBit v .t1
  t2 := p.t2 && !flagResetBit v .t2
  e1 := p.e1 && !flagResetBit v .e1
  e2 := p.e2 && !flagResetBit v .e2

/-- The source a timer's overflow is an event of (rule R201). -/
def timerSource : TimerId → Source
  | .one => .t1
  | .two => .t2

/-- The source an external line's event is an event of (rule R201). -/
def lineSource : LineId → Source
  | .one => .e1
  | .two => .e2

end Sys2Proof.Machine
end

