-- ==== Sys2Proof/Machine/Memory.lean ====
section
/-! DEFINITION. Reading and writing one word of a memory (`spec/20_memory.md` rules R61, R62, R66, R67), and the
canonical form of a memory. -/

namespace Sys2Proof.Machine

open Sys2Proof

/-- The word at address `a`; none where nothing is listed: neither the host nor a store has written it (rule R77). -/
def Memory.read : Memory → Nat → Option Word
  | [], _ => none
  | (b, w) :: m, a => if a = b then some w else Memory.read m a

/-- The memory with the word `v` at address `a` and every other word as it was (rule R67). -/
def Memory.write : Memory → Nat → Word → Memory
  | [], a, v => [(a, v)]
  | (b, w) :: m, a, v =>
    if a < b then (a, v) :: (b, w) :: m
    else if a = b then (a, v) :: m
    else (b, w) :: Memory.write m a v

/-- The canonical form: addresses strictly rising. An unlisted address holds no value, so no entry can equal what an
unlisted address reads as. -/
def Memory.wf : Memory → Bool
  | [] => true
  | [_] => true
  | (a, _) :: (b, w) :: m => decide (a < b) && Memory.wf ((b, w) :: m)

/-- Every listed address is below `n`. -/
def Memory.below (m : Memory) (n : Nat) : Bool := m.all fun cell => decide (cell.1 < n)

end Sys2Proof.Machine
end

