-- ==== Sys2Proof/Machine/Ops.lean ====
section
/-! DEFINITION. The operations the instructions and the step share: reading and writing a register
(`spec/10_state.md` rules R24, R25), data memory, fetch, the end of an instruction, and the interrupt controller: the
request, the selection, the entry and the return (`spec/60_exceptions.md` rules R204 to R210). -/

namespace Sys2Proof.Machine

open Sys2Proof Sys2Proof.Config

/-! ## Registers -/

/-- The value on the input port during the instruction now executing: one sample an instruction (rule R35, decision
D21), the environment's next one, or a free value where the environment's list is at its end. -/
def State.portSample (s : State) : Word := s.portIn.head?.getD (Config.inputPort s.portDraws)

/-- `x[r]` (rule R24). -/
def State.readReg (s : State) (r : RegNum) : Word :=
  match classify r with
  | .zero => 0
  | .stored i => s.regs[i]
  | .op => s.op
  | .rc => s.rc
  | .tmr1 => s.tmr1
  | .tmr2 => s.tmr2
  | .ip => s.portSample
  | .ipc => s.ipc.setWidth 32

/-- Return from interruption, Retfi: `INS <- 0` (rule R210). -/
def State.retfi (s : State) : State := s.setIns false

/-- A write of `v` to `rc` (rule R204): the register holds `v`; the flags whose reset bits are 1 and the timers whose
TRST bits are 1 become 0; a reset bit of a flag raises Retfi. The request is a function of the result (`intReq`). -/
def State.writeRc (s : State) (v : Word) : State :=
  let stored := s.setRc v
  let cleared := (stored.setPending (s.pending.clearedBy v)).setTimers
    (if timerResetBit v .one then 0 else s.tmr1) (if timerResetBit v .two then 0 else s.tmr2)
  if raisesRetfi v then cleared.retfi else cleared

/-- `x[r] <- v` (rule R25): dropped for a read-only register, an output event for `op`, the effects of rule R204 for
`rc`. -/
def State.writeReg (s : State) (r : RegNum) (v : Word) : State :=
  match classify r with
  | .stored i => s.setStored i v
  | .op => s.emitOp v
  | .rc => s.writeRc v
  | .zero | .tmr1 | .tmr2 | .ip | .ipc => s

/-! ## The end of an instruction -/

/-- The instruction is complete and the next one is at `a`; the input port goes on to its next sample. -/
def State.completeAt (s : State) (a : Addr) : State := (s.setPc a).nextSample

/-- `pc + 1`, modulo 2^PCW (rules R42, R43). -/
def State.nextPc (s : State) : Addr := s.pc + 1

/-- The end of an instruction that writes the result `v` to `x[rd]` and goes on to the next one (rule R110). -/
def writeResult (rd : RegNum) (v : Word) (s : State) : Result :=
  .next ((s.writeReg rd v).completeAt s.nextPc)

/-- The end of a transfer that writes no register: `pc <- target` (rule R185). -/
def transferTo (target : Addr) (s : State) : Result := .next (s.completeAt target)

/-! ## Data memory (`spec/20_memory.md` rules R65 to R67) -/

/-- The word at data address `a` as a load reads it: the word last written there, or, where neither the host nor a
store has written, a free value (rules R66, R77). -/
def State.dataWord (s : State) (a : Nat) : Word := (s.dmem.read a).getD (Config.unwrittenWord a)

/-- Is an access at `ea` admitted? (rule R65) -/
def State.admits (s : State) (ea : Word) : Bool := decide (ea.toNat < s.params.dmemWords)

/-- `MemRead(ea, 1)`, none where the access is not admitted. -/
def State.load (s : State) (ea : Word) : Option Word :=
  if s.admits ea then some (s.dataWord ea.toNat) else none

/-- `MemWrite(ea, 1, v)`, none where the access is not admitted. -/
def State.store (s : State) (ea v : Word) : Option State :=
  if s.admits ea then some (s.setDmem (s.dmem.write ea.toNat v)) else none

/-! ## Fetch (rule R75) -/

/-- `IMem[pc]`, none at or above `IMEM_WORDS` and where the program's image holds no word (rules R75, R77, R244). -/
def State.fetch (s : State) : Option Word :=
  if s.pc.toNat < s.params.imemWords then s.imem.read s.pc.toNat else none

/-! ## The interrupt controller -/

/-- Does a source ask for service: its flag is pending and its enable bit is 1? -/
def State.asks (s : State) (src : Source) : Bool := s.pending.get src && intEnableBit s.rc src

/-- `INT_REQ`, the signal Interruption (rule R205): no interrupt is in service and some source asks. -/
def State.intReq (s : State) : Bool :=
  !s.ins && (s.asks .t1 || s.asks .t2 || s.asks .e1 || s.asks .e2)

/-- `INT_PRIORITY` as a list of all four sources, the one served first standing first (rule R208). -/
def State.serviceOrder (s : State) : List Source := s.params.priority ++ Source.all

/-- The source whose entry is the core's next step, if one is: with the request up, the first in priority that asks
(rules R205, R206, R208). -/
def State.selected (s : State) : Option Source :=
  if s.intReq then s.serviceOrder.find? s.asks else none

/-- An address taken from a register: its low PCW bits, none if a higher bit is 1 (rules R183, R207). -/
def addrOf (v : Word) : Option Addr := if v.toNat < 2 ^ 16 then some (v.setWidth 16) else none

/-- Interrupt entry for the source `src` (rule R207): `ipc <- pc`, `INS <- 1`, `pc` takes the source's service address.
Nothing else changes: not `rc`, not the flag, no other register, no memory. -/
def enterInterrupt (src : Source) (s : State) : Result :=
  match addrOf (s.readReg (vectorReg src)) with
  | some a => .next (((s.setIpc s.pc).setIns true).setPc a)
  | none => .refused .vectorOutOfRange

end Sys2Proof.Machine
end

