-- ==== Sys2Proof/Machine/AluImmediate.lean ====
section
/-! DEFINITION. Immediate arithmetic and logic (`spec/43_alu_immediate.md`): the ALU of the register forms with the
sign-extended immediate as its second operand, for the logical instructions too (rule R160). -/

namespace Sys2Proof.Machine

open Sys2Proof

/-- `x[rd] <- x[rs] + sext(imm)` (rule R161). -/
def execAddi (rd rs : RegNum) (imm : Imm) (s : State) : Result :=
  writeResult rd (alu .add (s.readReg rs) (signedImm imm)) s

/-- `x[rd] <- x[rs] & sext(imm)` (rule R162). -/
def execAndi (rd rs : RegNum) (imm : Imm) (s : State) : Result :=
  writeResult rd (alu .and (s.readReg rs) (signedImm imm)) s

/-- `x[rd] <- x[rs] | sext(imm)` (rule R163). -/
def execOri (rd rs : RegNum) (imm : Imm) (s : State) : Result :=
  writeResult rd (alu .or (s.readReg rs) (signedImm imm)) s

/-- `x[rd] <- x[rs] ^ sext(imm)` (rule R164). -/
def execXori (rd rs : RegNum) (imm : Imm) (s : State) : Result :=
  writeResult rd (alu .xor (s.readReg rs) (signedImm imm)) s

/-- `x[rd] <- ~(x[rs] & sext(imm))` (rule R165). -/
def execNandi (rd rs : RegNum) (imm : Imm) (s : State) : Result :=
  writeResult rd (alu .nand (s.readReg rs) (signedImm imm)) s

/-- `x[rd] <- ~(x[rs] | sext(imm))` (rule R166). -/
def execNori (rd rs : RegNum) (imm : Imm) (s : State) : Result :=
  writeResult rd (alu .nor (s.readReg rs) (signedImm imm)) s

end Sys2Proof.Machine
end

