-- ==== Sys2Proof/Machine/AluRegister.lean ====
section
/-! DEFINITION. Register-format arithmetic and logic (`spec/40_alu_register.md`). Each instruction reads its sources,
writes its result and goes on (rule R110); sources are read before anything is written (`spec/10_state.md` rule R50). -/

namespace Sys2Proof.Machine

open Sys2Proof

/-- `x[rd] <- x[rs] + x[rt]` (rule R112). -/
def execAdd (rd rs rt : RegNum) (s : State) : Result :=
  writeResult rd (alu .add (s.readReg rs) (s.readReg rt)) s

/-- `x[rd] <- x[rs] & x[rt]` (rule R113). -/
def execAnd (rd rs rt : RegNum) (s : State) : Result :=
  writeResult rd (alu .and (s.readReg rs) (s.readReg rt)) s

/-- `x[rd] <- x[rs] | x[rt]` (rule R114). -/
def execOr (rd rs rt : RegNum) (s : State) : Result :=
  writeResult rd (alu .or (s.readReg rs) (s.readReg rt)) s

/-- `x[rd] <- x[rs] ^ x[rt]` (rule R115). -/
def execXor (rd rs rt : RegNum) (s : State) : Result :=
  writeResult rd (alu .xor (s.readReg rs) (s.readReg rt)) s

/-- `x[rd] <- ~(x[rs] & x[rt])` (rule R116). -/
def execNand (rd rs rt : RegNum) (s : State) : Result :=
  writeResult rd (alu .nand (s.readReg rs) (s.readReg rt)) s

/-- `x[rd] <- ~(x[rs] | x[rt])` (rule R117). -/
def execNor (rd rs rt : RegNum) (s : State) : Result :=
  writeResult rd (alu .nor (s.readReg rs) (s.readReg rt)) s

/-- `x[rd] <- x[rs] - x[rt]` (rule R118). -/
def execSub (rd rs rt : RegNum) (s : State) : Result :=
  writeResult rd (alu .sub (s.readReg rs) (s.readReg rt)) s

/-- `x[rd] <- 0 - x[rt]` (rule R119). -/
def execNeg (rd rt : RegNum) (s : State) : Result :=
  writeResult rd (alu .sub 0 (s.readReg rt)) s

/-- `x[rd] <- x[rs] + 1` (rule R120). -/
def execInc (rd rs : RegNum) (s : State) : Result :=
  writeResult rd (alu .inc (s.readReg rs) 0) s

end Sys2Proof.Machine
end

