-- ==== Sys2Proof/Machine/ControlTransfer.lean ====
section
/-! DEFINITION. Control transfer (`spec/45_control_transfer.md`): targets are absolute, a transfer takes effect at once,
there is no delay slot (rule R185). -/

namespace Sys2Proof.Machine

open Sys2Proof

/-- `pc <- target` if bit 31 of the wrapped difference `x[rd] - x[rs]` is 1, else `pc <- pc + 1` (rule R180). -/
def execBlt (rd rs : RegNum) (target : Addr) (s : State) : Result :=
  transferTo (if (alu .sub (s.readReg rd) (s.readReg rs)).msb then target else s.nextPc) s

/-- `pc <- target` if `x[rd] = x[rs]`, else `pc <- pc + 1` (rule R181). -/
def execBeq (rd rs : RegNum) (target : Addr) (s : State) : Result :=
  transferTo (if s.readReg rd = s.readReg rs then target else s.nextPc) s

/-- `pc <- target` (rule R182). -/
def execJ (target : Addr) (s : State) : Result := transferTo target s

/-- `pc <- x[rs]` and `x[rd] <- sext(imm)` in one instruction; a value at or above 2^PCW is refused as a target and
then nothing is written (rule R183). -/
def execJriw (rd rs : RegNum) (imm : Imm) (s : State) : Result :=
  match addrOf (s.readReg rs) with
  | some a => .next ((s.writeReg rd (signedImm imm)).completeAt a)
  | none => .refused .jumpTargetOutOfRange

/-- `x[rd] <- pc + 1`, zero-extended, and `pc <- target` (rule R184). -/
def execJal (rd : RegNum) (target : Addr) (s : State) : Result :=
  .next ((s.writeReg rd (s.nextPc.setWidth 32)).completeAt target)

end Sys2Proof.Machine
end

