-- ==== Sys2Proof/Machine/LoadStore.lean ====
section
/-! DEFINITION. Load and store (`spec/44_load_store.md`): the only instructions that touch data memory. An address at or
above `DMEM_WORDS` is refused, as rule R65 says. -/

namespace Sys2Proof.Machine

open Sys2Proof

/-- `DMem[x[rs] + sext(imm)] <- x[rd]`; the `rd` field names the register stored (rule R170). -/
def execSw (rd rs : RegNum) (imm : Imm) (s : State) : Result :=
  match s.store (effectiveAddr (s.readReg rs) imm) (s.readReg rd) with
  | some t => .next (t.completeAt s.nextPc)
  | none => .refused .dataAddressOutOfRange

/-- `x[rd] <- DMem[x[rs] + sext(imm)]` (rule R171). -/
def execLw (rd rs : RegNum) (imm : Imm) (s : State) : Result :=
  match s.load (effectiveAddr (s.readReg rs) imm) with
  | some v => writeResult rd v s
  | none => .refused .dataAddressOutOfRange

end Sys2Proof.Machine
end

