-- ==== Sys2Proof/Machine/MultDiv.lean ====
section
/-! DEFINITION. Multiply and divide (`spec/41_mult_div.md`). Operands are unsigned; `mult` takes the low bytes of its
sources, the other three the low halves; no instruction traps, a division by zero neither (rule R132). -/

namespace Sys2Proof.Machine

open Sys2Proof

/-- `x[rd] <- x[rs][7:0] * x[rt][7:0]`, bits 31:16 zero (rule R133). -/
def execMult (rd rs rt : RegNum) (s : State) : Result :=
  writeResult rd (multiplier (lowByte (s.readReg rs)) (lowByte (s.readReg rt))) s

/-- `x[rd] <- {x[rs][15:0] / x[rt][15:0], x[rs][15:0] % x[rt][15:0]}` (rule R134). -/
def execDiv (rd rs rt : RegNum) (s : State) : Result :=
  writeResult rd (divider (lowHalf (s.readReg rs)) (lowHalf (s.readReg rt))) s

/-- `x[rd] <- x[rs][15:0] * u(imm)` (rule R135). -/
def execMulti (rd rs : RegNum) (imm : Imm) (s : State) : Result :=
  writeResult rd (multiplier (lowHalf (s.readReg rs)) imm) s

/-- `x[rd] <- {x[rs][15:0] / u(imm), x[rs][15:0] % u(imm)}` (rule R136). -/
def execDivi (rd rs : RegNum) (imm : Imm) (s : State) : Result :=
  writeResult rd (divider (lowHalf (s.readReg rs)) imm) s

end Sys2Proof.Machine
end

