-- ==== Sys2Proof/Machine/ShiftRotate.lean ====
section
/-! DEFINITION. Shifts and rotate (`spec/42_shift_rotate.md`): the source is the register the `rt` field names, the
amount is a constant of the instruction, all 32 bits take part (rule R150). -/

namespace Sys2Proof.Machine

open Sys2Proof

/-- `x[rd] <- x[rt]` rotated left (rule R151). -/
def execRot (rd rt : RegNum) (shamt : Shamt) (s : State) : Result :=
  writeResult rd (shifter .rot (s.readReg rt) shamt) s

/-- `x[rd] <- x[rt] << shamt` (rule R152). -/
def execSll (rd rt : RegNum) (shamt : Shamt) (s : State) : Result :=
  writeResult rd (shifter .sll (s.readReg rt) shamt) s

/-- `x[rd] <- x[rt] >> shamt`, logical (rule R153). -/
def execSrl (rd rt : RegNum) (shamt : Shamt) (s : State) : Result :=
  writeResult rd (shifter .srl (s.readReg rt) shamt) s

/-- `x[rd] <- x[rt] >>a shamt`, arithmetic (rule R154). -/
def execSra (rd rt : RegNum) (shamt : Shamt) (s : State) : Result :=
  writeResult rd (shifter .sra (s.readReg rt) shamt) s

end Sys2Proof.Machine
end

