-- ==== Sys2Proof/Machine/Dispatch.lean ====
section
/-! DEFINITION. The meaning of each instruction, one arm per constructor of `Instr`. -/

namespace Sys2Proof.Machine

open Sys2Proof

def exec (i : Instr) (s : State) : Host.Outcome State Fault Refusal :=
  match i with
  | .add rd rs rt => Sys2Proof.Machine.execAdd rd rs rt s
  | .and rd rs rt => Sys2Proof.Machine.execAnd rd rs rt s
  | .or rd rs rt => Sys2Proof.Machine.execOr rd rs rt s
  | .xor rd rs rt => Sys2Proof.Machine.execXor rd rs rt s
  | .nand rd rs rt => Sys2Proof.Machine.execNand rd rs rt s
  | .nor rd rs rt => Sys2Proof.Machine.execNor rd rs rt s
  | .sub rd rs rt => Sys2Proof.Machine.execSub rd rs rt s
  | .neg rd rt => Sys2Proof.Machine.execNeg rd rt s
  | .inc rd rs => Sys2Proof.Machine.execInc rd rs s
  | .mult rd rs rt => Sys2Proof.Machine.execMult rd rs rt s
  | .div rd rs rt => Sys2Proof.Machine.execDiv rd rs rt s
  | .rot rd rt shamt => Sys2Proof.Machine.execRot rd rt shamt s
  | .sll rd rt shamt => Sys2Proof.Machine.execSll rd rt shamt s
  | .srl rd rt shamt => Sys2Proof.Machine.execSrl rd rt shamt s
  | .sra rd rt shamt => Sys2Proof.Machine.execSra rd rt shamt s
  | .j target => Sys2Proof.Machine.execJ target s
  | .sw rd rs imm => Sys2Proof.Machine.execSw rd rs imm s
  | .lw rd rs imm => Sys2Proof.Machine.execLw rd rs imm s
  | .blt rd rs target => Sys2Proof.Machine.execBlt rd rs target s
  | .beq rd rs target => Sys2Proof.Machine.execBeq rd rs target s
  | .jriw rd rs imm => Sys2Proof.Machine.execJriw rd rs imm s
  | .jal rd target => Sys2Proof.Machine.execJal rd target s
  | .addi rd rs imm => Sys2Proof.Machine.execAddi rd rs imm s
  | .andi rd rs imm => Sys2Proof.Machine.execAndi rd rs imm s
  | .ori rd rs imm => Sys2Proof.Machine.execOri rd rs imm s
  | .xori rd rs imm => Sys2Proof.Machine.execXori rd rs imm s
  | .nandi rd rs imm => Sys2Proof.Machine.execNandi rd rs imm s
  | .nori rd rs imm => Sys2Proof.Machine.execNori rd rs imm s
  | .multi rd rs imm => Sys2Proof.Machine.execMulti rd rs imm s
  | .divi rd rs imm => Sys2Proof.Machine.execDivi rd rs imm s

end Sys2Proof.Machine
end

