-- ==== Sys2Proof/Machine/Boundary.lean ====
section
/-! DEFINITION. The core's turn: what happens at an instruction boundary (`spec/60_exceptions.md` rule R206). -/

namespace Sys2Proof.Machine

open Sys2Proof

/-- Fetch, decode and execute the instruction at `pc` (`spec/20_memory.md` rule R75, `spec/30_encoding.md` rule R94). -/
def fetchAndExecute (s : State) : Result :=
  match s.fetch with
  | none => .refused .fetchOutOfRange
  | some w =>
    match decode w with
    | .error why => .refused (.undefinedEncoding why)
    | .ok i => exec i s

/-- The core's turn: the interrupt entry if the request is up, else the instruction at `pc` (rule R206). -/
def coreStep (s : State) : Result :=
  match s.selected with
  | some src => enterInterrupt src s
  | none => fetchAndExecute s

end Sys2Proof.Machine
end

