-- ==== Sys2Proof/Machine/Environment.lean ====
section
/-! DEFINITION. What the agents other than the core do (`spec/00_scope.md` rule R5): the two timers tick
(`spec/60_exceptions.md` rules R214 to R217) and the two external lines raise events (rule R218). When each acts is
the environment's choice, which the state's `schedule` holds and at its end a free stream of turns (rule R9). -/

namespace Sys2Proof.Machine

open Sys2Proof Sys2Proof.Config

/-- Is a source's flag held at 0, its reset bit being 1 under `RC_RST_MODE = level`? (rules R38, R203) -/
def State.holdsFlag (s : State) (src : Source) : Bool :=
  decide (s.params.rstMode = .level) && flagResetBit s.rc src

/-- The event of a source (rule R203): it sets the flag, but not while the flag is held at 0; where the source's enable
bit is 0 both outcomes are admitted, and `latch` says which one it is. -/
def State.raiseFlag (s : State) (src : Source) (latch : Bool) : State :=
  if !s.holdsFlag src && (intEnableBit s.rc src || latch) then s.setPending (s.pending.raise src) else s

/-- `v mod 2^TIMER_BITS`. -/
def State.timerWord (s : State) (v : Word) : Word := v &&& BitVec.ofNat 32 (2 ^ s.params.timerBits - 1)

/-- The counter of a timer. -/
def State.counter (s : State) : TimerId → Word
  | .one => s.tmr1
  | .two => s.tmr2

/-- The state with another value in the counter of a timer. -/
def State.setCounter (s : State) (n : TimerId) (v : Word) : State :=
  match n with
  | .one => s.setTimers v s.tmr2
  | .two => s.setTimers s.tmr1 v

/-- May the timer tick: TMRE is 1 and, under `level`, TRST is 0? (rule R215) -/
def State.tickEnabled (s : State) (n : TimerId) : Bool :=
  timerEnableBit s.rc n && !(decide (s.params.rstMode = .level) && timerResetBit s.rc n)

/-- A tick of a timer (rule R216): at the period the counter restarts at 0 and the source's event happens, else the
counter goes up by one. A tick that is not enabled does not happen (rule R215). -/
def State.tick (s : State) (n : TimerId) (latch : Bool) : State :=
  if s.tickEnabled n then
    if s.counter n = s.timerWord (s.readReg (periodReg n)) then
      (s.setCounter n 0).raiseFlag (timerSource n) latch
    else s.setCounter n (s.timerWord (s.counter n + 1))
  else s

/-- What an event of the environment does. -/
def State.applyEvent (s : State) : Event → State
  | .tick n latch => s.tick n latch
  | .external n latch => s.raiseFlag (lineSource n) latch

/-- Whose turn it is (rules R5, R9): the schedule's next turn, or a free one where the schedule is at its end. -/
def State.turn (s : State) : Turn := s.schedule.head?.getD (Config.environment s.turnDraws)

end Sys2Proof.Machine
end

