-- ==== Sys2Proof/Machine/Step.lean ====
section
/-! DEFINITION. One step of the machine: one turn of one agent (`spec/00_scope.md` rule R5). -/

namespace Sys2Proof.Machine

open Sys2Proof

/-- One step: the agent whose turn it is acts (rule R5). -/
def step (s : State) : Host.Outcome State Fault Refusal :=
  match s.turn with
  | .core => coreStep s.takeTurn
  | .env e => .next (s.takeTurn.applyEvent e)

/-- The state in which the next `k` turns are the core's: the environment is silent for `k` steps. -/
def State.coreTurns (s : State) (k : Nat) : State := s.setSchedule (List.replicate k .core)

/-- The state with the instruction of bits `w` in the instruction memory where the next fetch reads, and the core to
move. It stands for the host's load of a program (`spec/70_reset_and_hazards.md` rule R244). -/
def State.withFetchWord (s : State) (nbits w : Nat) : State :=
  (s.setImem (s.imem.write s.pc.toNat (tableWord nbits w))).coreTurns 1

end Sys2Proof.Machine
end

