-- ==== Sys2Proof/Machine/Assembly.lean ====
section
/-! DEFINITION. RISCKER-ASM (`spec/30_encoding.md` rules R97 to R102): the register names, the fields of a line, the
operand order of every mnemonic with its short form, and the words of a program text. Text is a list of characters. No
rule of the machine reads this file. -/

namespace Sys2Proof.Machine

open Sys2Proof

/-- Text, character by character. -/
abbrev Text := List Char

/-! ## Register names (rules R20, R100) -/

/-- The decimal digits of a number below 100. -/
def digits (n : Nat) : Text :=
  if n < 10 then [Char.ofNat (48 + n)] else [Char.ofNat (48 + n / 10), Char.ofNat (48 + n % 10)]

/-- The names `stem<first>`, `stem<first+1>`, ... of `count` registers. -/
def named (stem : String) (first count : Nat) : List Text :=
  (List.range count).map fun k => stem.toList ++ digits (first + k)

/-- The names of registers 0 to 63, in the order of their numbers (Tabla 3). -/
def registerNames : List Text :=
  named "r" 0 1 ++ named "rv" 0 8 ++ named "rp" 0 8 ++ named "rt" 0 8 ++ named "rg" 0 22 ++ named "ra" 0 4 ++
  ["sp".toList] ++ named "pr" 1 2 ++ named "ti" 1 2 ++ named "eir" 1 2 ++ ["op".toList, "rc".toList] ++
  named "tmr" 1 2 ++ ["ip".toList, "ipc".toList]

/-- The number of a register by its name; none for any other text (the bare `ra`, say: conflict C6). -/
def registerNumber (name : Text) : Option RegNum :=
  if name ∈ registerNames then some (BitVec.ofNat 6 (registerNames.idxOf name)) else none

/-! ## Numbers (rule R101) -/

/-- The value of a decimal digit. -/
def digitValue (c : Char) : Option Nat := if '0' ≤ c ∧ c ≤ '9' then some (c.toNat - 48) else none

/-- The value of a text of decimal digits read after `acc`. -/
def decimalFrom (acc : Nat) : Text → Option Nat
  | [] => some acc
  | c :: cs =>
    match digitValue c with
    | some d => decimalFrom (10 * acc + d) cs
    | none => none

/-- A decimal number; the empty text is none. -/
def decimal : Text → Option Nat
  | [] => none
  | c :: cs => decimalFrom 0 (c :: cs)

/-- A decimal number with an optional minus sign. -/
def signedDecimal : Text → Option Int
  | '-' :: cs => (decimal cs).map fun n => -(n : Int)
  | cs => (decimal cs).map fun n => (n : Int)

/-- A number operand: the `#` before it is optional (decision D33). DESIGN CHOICE, safe: a minus sign stands after the
`#`; the source does not say where (`91_not_in_source.md` N18, assumption log 18). -/
def numberOperand : Text → Option Int
  | '#' :: cs => signedDecimal cs
  | cs => signedDecimal cs

/-- The 16 bits of a value from -32768 to 65535; none for any other value. -/
def sixteenBits (v : Int) : Option Imm :=
  if -32768 ≤ v ∧ v ≤ 65535 then some (BitVec.ofInt 16 v) else none

/-- A shift amount, 0 to 15. -/
def shamtOperand (t : Text) : Option Shamt :=
  (numberOperand t).bind fun v => if 0 ≤ v ∧ v ≤ 15 then some (BitVec.ofInt 4 v) else none

/-- The labels of a program with the addresses of the lines they label. -/
abbrev Labels := List (Text × Addr)

/-- A target or an immediate: a label, which stands for the instruction address it names, or a number of 16 bits (rule
R101). DESIGN CHOICE, safe: a label may stand for an immediate too; rule R101 says it of targets only, and the programs
of `95_test_vectors.md` sections 3.4 and 3.5 write `addi eir1, r0, ISR` (assumption log 18). -/
def labelOrNumber (labels : Labels) (t : Text) : Option (BitVec 16) :=
  match labels.lookup t with
  | some a => some a
  | none => (numberOperand t).bind sixteenBits

/-! ## Operand order (rules R98, R99) -/

/-- The mnemonics with the operands Rd, Rs, Rt. -/
def threeRegister : List (Text × (RegNum → RegNum → RegNum → Instr)) :=
  [("add".toList, .add), ("and".toList, .and), ("or".toList, .or), ("xor".toList, .xor), ("nand".toList, .nand),
   ("nor".toList, .nor), ("sub".toList, .sub), ("mult".toList, .mult), ("div".toList, .div)]

/-- The mnemonics with two register operands, Rd and the source. -/
def twoRegister : List (Text × (RegNum → RegNum → Instr)) :=
  [("neg".toList, .neg), ("inc".toList, .inc)]

/-- The mnemonics with the operands Rd, Rt, shamt. -/
def shiftByAmount : List (Text × (RegNum → RegNum → Shamt → Instr)) :=
  [("rot".toList, .rot), ("sll".toList, .sll), ("srl".toList, .srl), ("sra".toList, .sra)]

/-- The mnemonics with the operands Rd, Rs, imm. -/
def registerImmediate : List (Text × (RegNum → RegNum → Imm → Instr)) :=
  [("addi".toList, .addi), ("andi".toList, .andi), ("ori".toList, .ori), ("xori".toList, .xori),
   ("nandi".toList, .nandi), ("nori".toList, .nori), ("multi".toList, .multi), ("divi".toList, .divi),
   ("sw".toList, .sw), ("lw".toList, .lw)]

/-- The mnemonics with the operands Rd, Rs, target. -/
def branches : List (Text × (RegNum → RegNum → Addr → Instr)) :=
  [("blt".toList, .blt), ("beq".toList, .beq)]

/-- Two registers and a last operand, or the short form in which the destination is also the source (rule R99). -/
def fullOrShort {α β : Type} (f : RegNum → RegNum → α → β) (last : Text → Option α) : List Text → Option β
  | [d, s, x] => do return f (← registerNumber d) (← registerNumber s) (← last x)
  | [d, x] => do
    let rd ← registerNumber d
    return f rd rd (← last x)
  | _ => none

/-- The instruction a mnemonic and its operands stand for (rules R98, R99); that an immediate may be a label is the
choice of `labelOrNumber`. DESIGN CHOICE, safe: a mnemonic is read in lower case only; the source leaves its case open,
and decision D33 settles that of register names alone (`91_not_in_source.md` N18, assumption log 18). -/
def operation (labels : Labels) (mnemonic : Text) (operands : List Text) : Option Instr :=
  match threeRegister.lookup mnemonic with
  | some f => fullOrShort f registerNumber operands
  | none =>
  match shiftByAmount.lookup mnemonic with
  | some f => fullOrShort f shamtOperand operands
  | none =>
  match registerImmediate.lookup mnemonic with
  | some f => fullOrShort f (labelOrNumber labels) operands
  | none =>
  match branches.lookup mnemonic with
  | some f => fullOrShort f (labelOrNumber labels) operands
  | none =>
  match twoRegister.lookup mnemonic, operands with
  | some f, [d, s] => do return f (← registerNumber d) (← registerNumber s)
  | some f, [d] => do
    let rd ← registerNumber d
    return f rd rd
  | some _, _ => none
  | none, [t] =>
    if mnemonic = "j".toList then (labelOrNumber labels t).map .j
    else if mnemonic = "jriw".toList then (registerNumber t).map fun rs => .jriw 0 rs 0
    else none
  | none, [d, t] =>
    if mnemonic = "jal".toList then do return .jal (← registerNumber d) (← labelOrNumber labels t) else none
  | none, [s, d, x] =>
    if mnemonic = "jriw".toList then
      do return .jriw (← registerNumber d) (← registerNumber s) (← labelOrNumber labels x)
    else none
  | none, _ => none

/-! ## Lines and programs (rules R97, R101) -/

/-- The text up to the first `c`, and what follows it if there is one. -/
def cutAt (c : Char) : Text → Text × Option Text
  | [] => ([], none)
  | x :: xs => if x = c then ([], some xs) else ((x :: (cutAt c xs).1), (cutAt c xs).2)

/-- The pieces of a text between the occurrences of `c`. -/
def piecesAt (c : Char) : Text → List Text
  | [] => [[]]
  | x :: xs =>
    if x = c then [] :: piecesAt c xs
    else match piecesAt c xs with
      | p :: ps => (x :: p) :: ps
      | [] => [[x]]

/-- The text without the blanks at its two ends. -/
def trimmed (t : Text) : Text := ((t.dropWhile (· = ' ')).reverse.dropWhile (· = ' ')).reverse

/-- The fields of a line (rule R97): the label, the mnemonic (empty on a line without an operation), the operands. -/
structure Line where
  label : Option Text
  mnemonic : Text
  operands : List Text

/-- A line without its comment, cut into its fields (rule R97). DESIGN CHOICE, safe: a line may have a label and no
operation, or no field at all; the source leaves open whether a label may stand alone on a line
(`91_not_in_source.md` N18, assumption log 18). -/
def parseLine (line : Text) : Line :=
  let code := (cutAt ';' line).1
  let (label, rest) := match cutAt ':' code with
    | (l, some r) => (some (trimmed l), r)
    | (l, none) => (none, l)
  let (mnemonic, operands) := match cutAt ' ' (trimmed rest) with
    | (m, some ops) => (m, (piecesAt ',' ops).map trimmed)
    | (m, none) => (m, [])
  ⟨label, mnemonic, operands⟩

/-- The labels of the lines from address `a` on: a label names the address of the instruction on its line (rules R97,
R101). DESIGN CHOICE, safe: a label that stands alone on its line names the address of the next instruction, as if it
stood on that instruction's line (`91_not_in_source.md` N18, assumption log 18). -/
def labelsFrom (a : Addr) : List Line → Labels
  | [] => []
  | l :: ls =>
    let rest := labelsFrom (if l.mnemonic = [] then a else a + 1) ls
    match l.label with
    | some name => (name, a) :: rest
    | none => rest

/-- The word of a line: none for a line that is no instruction of the language, some none for a line without an
operation. -/
def lineWord (labels : Labels) (l : Line) : Option (Option Word) :=
  if l.mnemonic = [] then some none
  else (operation labels l.mnemonic l.operands).map fun i => some (encode i)

/-- The words of a program text placed at address `origin` (rules R97 to R102). -/
def assemble (origin : Addr) (program : List String) : Option (List Word) :=
  let lines := program.map fun l => parseLine l.toList
  (lines.mapM (lineWord (labelsFrom origin lines))).map fun ws => ws.filterMap id

end Sys2Proof.Machine
end

