-- ==== Sys2Proof/Machine/Control.lean ====
section
/-! DEFINITION. Tabla 6: the control signals that depend on the instruction only (`spec/30_encoding.md` rule R104). It
is the source's evidence for the function codes of rule R87; no rule of the machine reads it. -/

namespace Sys2Proof.Machine

open Sys2Proof

/-- One row of Tabla 6; none is the table's don't-care X. The column shamt is
the instruction's amount where the table has `SHAM`. -/
structure ControlSignals where
  pcSrc : BitVec 2
  r2Src : Option (BitVec 1)
  aluSrc : Option (BitVec 1)
  aluop : Option (BitVec 3)
  shamt : Option Shamt
  shiftMode : Option (BitVec 2)
  select : Option (BitVec 2)
  regSrc : Option (BitVec 2)
  deriving DecidableEq, Repr

/-- A row whose result is the ALU's, from two registers. -/
def aluRow (aluop : BitVec 3) : ControlSignals := ⟨0, some 0, some 0, some aluop, none, none, some 0, some 0⟩
/-- A row whose result is the shifter's. -/
def shiftRow (mode : BitVec 2) (shamt : Shamt) : ControlSignals :=
  ⟨0, some 0, some 0, none, some shamt, some mode, some 1, some 0⟩
/-- A row whose result is the ALU's, from a register and the immediate. -/
def immRow (aluop : BitVec 3) : ControlSignals := ⟨0, none, some 1, some aluop, none, none, some 0, some 0⟩

/-- Tabla 6, row by row. -/
def controlSignals : Instr → ControlSignals
  | .add .. => aluRow 0
  | .and .. => aluRow 1
  | .or .. => aluRow 2
  | .xor .. => aluRow 3
  | .nand .. => aluRow 4
  | .nor .. => aluRow 5
  | .sub .. => aluRow 6
  | .neg .. => aluRow 6
  | .inc .. => aluRow 7
  | .mult .. => ⟨0, some 0, some 0, none, none, none, some 2, some 0⟩
  | .div .. => ⟨0, some 0, some 0, none, none, none, some 3, some 0⟩
  | .rot _ _ shamt => shiftRow 0 shamt
  | .sll _ _ shamt => shiftRow 1 shamt
  | .srl _ _ shamt => shiftRow 2 shamt
  | .sra _ _ shamt => shiftRow 3 shamt
  | .addi .. => immRow 0
  | .andi .. => immRow 1
  | .ori .. => immRow 2
  | .xori .. => immRow 3
  | .nandi .. => immRow 4
  | .nori .. => immRow 5
  | .multi .. => ⟨0, none, some 1, none, none, none, some 2, some 0⟩
  | .divi .. => ⟨0, none, some 1, none, none, none, some 3, some 0⟩
  | .lw .. => ⟨0, none, some 1, some 0, none, none, some 0, some 2⟩
  | .sw .. => ⟨0, none, some 1, some 0, none, none, some 0, none⟩
  | .beq .. => ⟨1, some 1, some 0, some 6, none, none, some 0, none⟩
  | .blt .. => ⟨1, some 1, some 0, some 6, none, none, some 0, none⟩
  | .jriw .. => ⟨2, some 0, none, none, none, none, none, some 3⟩
  | .jal .. => ⟨1, none, none, none, none, none, none, some 1⟩
  | .j .. => ⟨1, some 1, some 0, none, none, none, none, some 1⟩

end Sys2Proof.Machine
end

