-- ==== Sys2Proof/Safety.lean ====
section
/-! DEFINITION. The terms the statements use: what a completed instruction changed and what it left alone, in terms of
what can be read from the two states; the invariant of the machine; the end of a run; and when two states look the same
to a program. Bits of `rc` are named here by their numbers (`spec/10_state.md` rule R37), not by the machine's own
accessors, so that a wrong bit number in the machine makes a statement false. -/

namespace Sys2Proof.Machine

open Sys2Proof Sys2Proof.Config

/-! ## What an instruction changed -/

/-- The registers software can write: 1 to 59 (`spec/10_state.md` rule R25). -/
abbrev Writable (r : RegNum) : Prop := 1 ≤ r.toNat ∧ r.toNat ≤ 59

/-- The pending flags, the in-service bit and the two counters are as before. -/
structure SameDevices (s t : State) : Prop where
  pending : t.pending = s.pending
  ins : t.ins = s.ins
  tmr1 : t.tmr1 = s.tmr1
  tmr2 : t.tmr2 = s.tmr2

/-- What a write of `v` to `rc` did to the flags, the in-service bit and the counters (`spec/60_exceptions.md` rules
R204, R210, R217): the flag of a reset bit 0 to 3 that is 1 is cleared, a reset bit that is 1 ends service, TRST bits 14
and 15 clear the counters. -/
structure RcWritten (v : Word) (s t : State) : Prop where
  t1 : t.pending.t1 = (s.pending.t1 && !v.getLsbD 0)
  t2 : t.pending.t2 = (s.pending.t2 && !v.getLsbD 1)
  e1 : t.pending.e1 = (s.pending.e1 && !v.getLsbD 2)
  e2 : t.pending.e2 = (s.pending.e2 && !v.getLsbD 3)
  ins : t.ins = (s.ins && decide (v.extractLsb' 0 4 = 0))
  tmr1 : t.tmr1 = if v.getLsbD 14 then 0 else s.tmr1
  tmr2 : t.tmr2 = if v.getLsbD 15 then 0 else s.tmr2

/-- Register `rd` was written with `v` (rule R25): it reads `v`, or, if it is read-only, as before; every other register
reads as before, but for the counters where `rc` was written; `op` emits an output event; only a write of `rc` has an
effect on the flags, `INS` and the counters. The input port (62) is left out of every clause: it is the environment's. -/
structure RegisterWritten (rd : RegNum) (v : Word) (s t : State) : Prop where
  written : Writable rd → t.readReg rd = v
  discarded : ¬Writable rd → rd ≠ 62 → t.readReg rd = s.readReg rd
  others : ∀ r : RegNum, r ≠ rd → r ≠ 62 → (rd = 59 → r ≠ 60 ∧ r ≠ 61) → t.readReg r = s.readReg r
  outputs : t.outputs = if rd = 58 then s.outputs ++ [v] else s.outputs
  rc : rd = 59 → RcWritten v s t
  devices : rd ≠ 59 → SameDevices s t

/-- No register was written: every register reads as before, but the input port, which is the environment's. -/
structure NoRegisterWritten (s t : State) : Prop where
  registers : ∀ r : RegNum, r ≠ 62 → t.readReg r = s.readReg r
  outputs : t.outputs = s.outputs
  devices : SameDevices s t

/-- Every word of data memory reads as before. -/
abbrev SameData (s t : State) : Prop := ∀ a : Nat, t.dmem.read a = s.dmem.read a

/-- The program, the parameters and the turns to come are as before, and the input port went on by one sample. -/
structure SameRest (s t : State) : Prop where
  imem : t.imem = s.imem
  params : t.params = s.params
  schedule : t.schedule = s.schedule
  turnDraws : t.turnDraws = s.turnDraws
  portIn : t.portIn = s.portIn.tail
  portDraws : t.portDraws = s.portDraws + 1

/-- The instruction completed with `v` written to `x[rd]`, the next instruction at `a`, and nothing else changed. -/
structure Writes (rd : RegNum) (v : Word) (a : Addr) (s t : State) : Prop where
  register : RegisterWritten rd v s t
  pc : t.pc = a
  data : SameData s t
  rest : SameRest s t

/-- The instruction completed with the next instruction at `a`, and nothing else changed. -/
structure GoesTo (a : Addr) (s t : State) : Prop where
  register : NoRegisterWritten s t
  pc : t.pc = a
  data : SameData s t
  rest : SameRest s t

/-- The instruction completed with the word `v` stored at data address `ea`, and nothing else changed. -/
structure Stores (ea : Nat) (v : Word) (s t : State) : Prop where
  register : NoRegisterWritten s t
  pc : t.pc = s.pc + 1
  stored : t.dmem.read ea = some v
  others : ∀ a : Nat, a ≠ ea → t.dmem.read a = s.dmem.read a
  rest : SameRest s t

/-- The same answer with every next state put through `f`. -/
def mapNext (f : State → State) : Result → Result
  | .next s => .next (f s)
  | .fault r => .fault r
  | .refused r => .refused r

/-! ## The invariant -/

/-- The parameters respect the bounds of `spec/00_scope.md` rule R3. -/
structure ParamsOk (p : Params) : Prop where
  imem : p.imemWords ≤ 65536
  dmem : p.dmemWords ≤ 65536
  timer : p.timerBits ≤ 32

/-- Under `RC_RST_MODE = level` a reset bit that is 1 holds its flag, or its counter, at 0 (rules R38, R41). -/
structure Held (s : State) : Prop where
  t1 : s.rc.getLsbD 0 = true → s.pending.t1 = false
  t2 : s.rc.getLsbD 1 = true → s.pending.t2 = false
  e1 : s.rc.getLsbD 2 = true → s.pending.e1 = false
  e2 : s.rc.getLsbD 3 = true → s.pending.e2 = false
  tmr1 : s.rc.getLsbD 14 = true → s.tmr1 = 0
  tmr2 : s.rc.getLsbD 15 = true → s.tmr2 = 0

/-- What every step keeps: the parameters respect their bounds; both memories have the canonical form and lie in their
address spaces; the counters are below 2^TIMER_BITS (rule R34); what `level` holds at 0 is 0; `op` shows the last output
event (rule R33). -/
structure State.Inv (s : State) : Prop where
  params : ParamsOk s.params
  imemForm : s.imem.wf = true
  imemSpace : s.imem.below s.params.imemWords = true
  dmemForm : s.dmem.wf = true
  dmemSpace : s.dmem.below s.params.dmemWords = true
  tmr1 : s.tmr1.toNat < 2 ^ s.params.timerBits
  tmr2 : s.tmr2.toNat < 2 ^ s.params.timerBits
  held : s.params.rstMode = .level → Held s
  output : ∀ v, s.outputs.getLast? = some v → s.op = v

/-! ## Sources, by the numbers of the spec's tables -/

/-- The source an event is an event of (`spec/60_exceptions.md` rule R201). -/
def eventSource : Event → Source
  | .tick .one _ => .t1
  | .tick .two _ => .t2
  | .external .one _ => .e1
  | .external .two _ => .e2

/-- The number of a source's reset bit in `rc` (rule R201). Its enable bit stands four places higher. -/
def resetBitNumber : Source → Nat
  | .t1 => 0
  | .t2 => 1
  | .e1 => 2
  | .e2 => 3

/-- The number of a source's service address register (rule R201). -/
def serviceRegister : Source → RegNum
  | .t1 => 54
  | .t2 => 55
  | .e1 => 56
  | .e2 => 57

/-- The flag of a source after its event, whatever it was before (rule R203): held at 0 under `level` while the reset
bit is 1; set if the source is enabled; where it is not, as `latch` says. -/
def flagAfterEvent (s : State) (src : Source) (latch : Bool) : Bool :=
  s.pending.get src ||
    (!(decide (s.params.rstMode = .level) && s.rc.getLsbD (resetBitNumber src)) &&
      (s.rc.getLsbD (resetBitNumber src + 4) || latch))

/-- An event of the environment left everything alone but the flags and the counters (rule R224). -/
structure SameToCore (s t : State) : Prop where
  registers : ∀ r : RegNum, r ≠ 60 → r ≠ 61 → t.readReg r = s.readReg r
  pc : t.pc = s.pc
  ins : t.ins = s.ins
  data : SameData s t
  imem : t.imem = s.imem
  outputs : t.outputs = s.outputs
  params : t.params = s.params

/-! ## The end of a run -/

/-- The run has ended at `a` (`spec/70_reset_and_hazards.md` rule R245): `pc` is `a`, the word there is `j a`, and no
interrupt source is enabled. -/
structure State.Ended (a : Addr) (s : State) : Prop where
  pc : s.pc = a
  jump : s.fetch = some (encode (.j a))
  disabled : s.rc.extractLsb' 4 4 = 0

/-! ## What a program can see of the environment -/

/-- The register numbers an instruction reads. -/
def sourceRegisters : Instr → List RegNum
  | .add _ rs rt | .and _ rs rt | .or _ rs rt | .xor _ rs rt | .nand _ rs rt | .nor _ rs rt | .sub _ rs rt
  | .mult _ rs rt | .div _ rs rt => [rs, rt]
  | .neg _ rt | .rot _ rt _ | .sll _ rt _ | .srl _ rt _ | .sra _ rt _ => [rt]
  | .inc _ rs | .lw _ rs _ | .jriw _ rs _ | .addi _ rs _ | .andi _ rs _ | .ori _ rs _ | .xori _ rs _
  | .nandi _ rs _ | .nori _ rs _ | .multi _ rs _ | .divi _ rs _ => [rs]
  | .sw rd rs _ | .blt rd rs _ | .beq rd rs _ => [rd, rs]
  | .j _ | .jal _ _ => []

/-- The register number an instruction writes, if it has a destination (`spec/30_encoding.md` rule R93). -/
def destination : Instr → Option RegNum
  | .add rd _ _ | .and rd _ _ | .or rd _ _ | .xor rd _ _ | .nand rd _ _ | .nor rd _ _ | .sub rd _ _ | .neg rd _
  | .inc rd _ | .mult rd _ _ | .div rd _ _ | .rot rd _ _ | .sll rd _ _ | .srl rd _ _ | .sra rd _ _ | .lw rd _ _
  | .jriw rd _ _ | .jal rd _ | .addi rd _ _ | .andi rd _ _ | .ori rd _ _ | .xori rd _ _ | .nandi rd _ _
  | .nori rd _ _ | .multi rd _ _ | .divi rd _ _ => some rd
  | .j _ | .sw _ _ _ | .blt _ _ _ | .beq _ _ _ => none

/-- The step from `s` to `t` ran the instruction `i`: it was the core's turn, no interrupt was to be taken, the word at
`pc` decodes to `i`, and `t` is its next state. -/
structure Ran (i : Instr) (s t : State) : Prop where
  turn : s.turn = .core
  noEntry : s.selected = none
  decoded : ∃ w, s.fetch = some w ∧ decode w = .ok i
  result : exec i s.takeTurn = .next t

/-- The step from `s` to `t` ran an instruction whose destination is register `r`. -/
abbrev RanWriting (r : RegNum) (s t : State) : Prop := ∃ i, Ran i s t ∧ destination i = some r

/-- The instruction reads none of tmr1, tmr2 and ip, where the environment shows. -/
abbrev IgnoresEnvironment (i : Instr) : Prop :=
  (60 : RegNum) ∉ sourceRegisters i ∧ (61 : RegNum) ∉ sourceRegisters i ∧ (62 : RegNum) ∉ sourceRegisters i

/-- The two states differ at most in what the environment moves: the counters, the pending flags, the samples of the
input port and the turns to come. -/
structure SameToProgram (s t : State) : Prop where
  regs : t.regs = s.regs
  op : t.op = s.op
  rc : t.rc = s.rc
  ipc : t.ipc = s.ipc
  pc : t.pc = s.pc
  ins : t.ins = s.ins
  dmem : t.dmem = s.dmem
  imem : t.imem = s.imem
  outputs : t.outputs = s.outputs
  params : t.params = s.params

/-- The two answers are the same stop, or next states that look the same to the program. -/
def SameAnswer : Result → Result → Prop
  | .next s, .next t => SameToProgram s t
  | .fault a, .fault b => a = b
  | .refused a, .refused b => a = b
  | _, _ => False

end Sys2Proof.Machine
end

