-- ==== Sys2Proof/Certificates/Slice0/Obligations.lean ====
section
/-! DEFINITION. The statements about the machine, for the provers. Each docstring names the rule of the spec it
formalises; where a clause rests on a decision of the spec (`92_eei_decisions.md` D<n>) or on a choice of the model (the
assumption log), it says so. Some decisions enter everywhere and are not repeated: the width 32 (D1), the order of the
fields of a word (D2), the width and the wrap of `pc` (D3), and, where a statement says what an instruction writes, that a
read-only register drops it (D20), that `op` emits it (D21), that a register reads back as written (D22) and what a write
of `rc` does (D36). Assumption log 17 covers the decisions as a whole. -/

open Sys2Proof Sys2Proof.Machine Sys2Proof.Config

/-! ## Encoding (`spec/30_encoding.md`) -/

/-- Decoding the word of a machine instruction gives the instruction back, for every value of every field. The layout
of the word is the spec's decision (D2, D18, D19). -/
def Obligations.DecodeOfEncodeIsIdentity : Prop :=
  ∀ i : Instr, i.wellFormed = true → decode (encode i) = .ok i

/-- A word that decodes is the word of the instruction it decodes to, a machine instruction: no bit of a word is
dropped and no two words are one instruction (decisions D11, D12: unused fields are refused, not ignored; the layout
is decisions D2, D18, D19). -/
def Obligations.EncodeOfDecodeIsIdentity : Prop :=
  ∀ (w : Word) (i : Instr), decode w = .ok i → encode i = w ∧ i.wellFormed = true

/-- The words the decoder refuses are exactly the five kinds of rule R94 (decisions D11, D12; the fields that are
unused are decisions D10 and D19). -/
def Obligations.RefusedWordsAreTheListedKinds : Prop :=
  ∀ w : Word,
    let funct := (w.extractLsb' 0 10).toNat
    let shift := 0x040 ≤ funct ∧ funct ≤ 0x07F
    (∃ why, decode w = .error why) ↔
      (w.extractLsb' 28 4 = 0x0#4 ∧ ¬(funct ≤ 0x007 ∨ shift ∨ funct = 0x088 ∨ funct = 0x0C9)) ∨
      (w.extractLsb' 28 4 = 0x0#4 ∧ funct = 0x007 ∧ w.extractLsb' 10 6 ≠ 0#6) ∨
      (w.extractLsb' 28 4 = 0x0#4 ∧ shift ∧ w.extractLsb' 16 6 ≠ 0#6) ∨
      (w.extractLsb' 28 4 = 0x1#4 ∧ w.extractLsb' 16 12 ≠ 0#12) ∨
      (w.extractLsb' 28 4 = 0x7#4 ∧ w.extractLsb' 16 6 ≠ 0#6)

/-- Words written out from the encodings of the spec, one of each family, decode to their instructions (decisions D2,
D18, D19). -/
def Obligations.SampleWordsDecode : Prop :=
  decode 0x06D96800#32 = .ok (.add 27 25 26) ∧ decode 0x06D968C9#32 = .ok (.div 27 25 26) ∧
  decode 0x06C06857#32 = .ok (.sll 27 26 7) ∧ decode 0x86D9FFFF#32 = .ok (.addi 27 25 0xFFFF) ∧
  decode 0x26D90005#32 = .ok (.sw 27 25 5) ∧ decode 0x7BC00200#32 = .ok (.jal 47 0x200) ∧
  decode 0x6EFF10F1#32 = .ok (.jriw 59 63 0x10F1)

/-- `neg rd, rt` is a second spelling of `sub rd, r0, rt` (rule R92, decision D9): the same word, which decodes to
`sub`, and the same meaning; no word decodes to `neg`. -/
def Obligations.NegIsSubFromRegisterZero : Prop :=
  ∀ (rd rt : RegNum) (s : State),
    encode (.neg rd rt) = encode (.sub rd 0 rt) ∧ decode (encode (.neg rd rt)) = .ok (.sub rd 0 rt) ∧
    exec (.neg rd rt) s = exec (.sub rd 0 rt) s ∧ ∀ w : Word, decode w ≠ .ok (.neg rd rt)

/-- The function code of a register-format word carries the Operation column of Tabla 6 (rule R87, which the spec
derives from Tabla 2 and Tabla 6): bits 9:8 are 0, bits 7:6 the select, bits 5:4 the shift mode (0 where the column is
don't-care), bits 3:0 the shift amount exactly where the select is 01, bits 2:0 the aluop where the select is 00. -/
def Obligations.FunctionCodeCarriesOperation : Prop :=
  ∀ (w : Word) (i : Instr), decode w = .ok i → w.extractLsb' 28 4 = 0x0#4 →
    w.extractLsb' 8 2 = 0#2 ∧ (controlSignals i).select = some (w.extractLsb' 6 2) ∧
    w.extractLsb' 4 2 = (controlSignals i).shiftMode.getD 0 ∧
    (controlSignals i).shamt = (if w.extractLsb' 6 2 = 0b01#2 then some (w.extractLsb' 0 4) else none) ∧
    (controlSignals i).aluop = (if w.extractLsb' 6 2 = 0b00#2 then some (w.extractLsb' 0 3) else none)

/-! ## The step -/

/-- When it is the core's turn, no interrupt is to be taken and the word at `pc` decodes to an instruction, the step
is that instruction on the state with the turn taken off the schedule (rules R75, R206, decision D26; the schedule and
the count of turns are the model's own, assumption log 5). -/
def Obligations.StepRunsTheDecodedInstruction : Prop :=
  ∀ (s : State) (w : Word) (i : Instr), s.turn = .core → s.selected = none →
    s.pc.toNat < s.params.imemWords → s.imem.read s.pc.toNat = some w → decode w = .ok i →
    step s = exec i s.takeTurn ∧
    s.takeTurn = { s with schedule := s.schedule.tail, turnDraws := s.turnDraws + 1 }

/-- When it is the core's turn and no interrupt is to be taken, the step refuses a `pc` outside the program's image or
at or above `IMEM_WORDS`, and a word that is no instruction (rules R75, R77, R94, R244, decisions D6, D12, D34). -/
def Obligations.StepRefusesWhatIsNoInstruction : Prop :=
  ∀ s : State, s.turn = .core → s.selected = none →
    (s.params.imemWords ≤ s.pc.toNat ∨ s.imem.read s.pc.toNat = none → step s = .refused .fetchOutOfRange) ∧
    ∀ w why, s.pc.toNat < s.params.imemWords → s.imem.read s.pc.toNat = some w → decode w = .error why →
      step s = .refused (.undefinedEncoding why)

/-- No step changes the program (`spec/20_memory.md` rules R61, R74, decision D4) or the parameters (`spec/00_scope.md`
rules R3, R8: both are parameters of a run; that the state carries them is the model's choice, assumption log 4, 8). -/
def Obligations.ProgramNeverChanges : Prop :=
  ∀ s t : State, step s = .next t → t.imem = s.imem ∧ t.params = s.params

/-! ## Registers and memories -/

/-- Register 0 reads 0 in every state, and a write to it is discarded: nothing changes (rule R26). -/
def Obligations.RegisterZeroIsConstant : Prop :=
  ∀ s : State, s.readReg 0 = 0 ∧ ∀ v : Word, s.writeReg 0 v = s

/-- A register that software can write holds its value (rules R21, R23, R24): if a step changes what one of the
registers 1 to 59 reads, the step ran an instruction that names it as its destination. -/
def Obligations.RegistersChangeOnlyAsDestinations : Prop :=
  ∀ (s t : State) (r : RegNum), step s = .next t → Writable r → t.readReg r ≠ s.readReg r → RanWriting r s t

/-- Which instructions reach which memory (rule R63; the address and when it is admitted are decisions D6, D7, the two
memories D4). Fetch reads the instruction memory; `lw` reads the data memory and leaves it alone; `sw` writes it, at
its effective address and nowhere else. An instruction other than `lw` and `sw` answers the same, the data memory
carried along, whatever the data memory holds; no instruction, `sw` and `lw` among them, reads or writes the
instruction memory; interrupt entry uses neither memory, and the return is an instruction. -/
def Obligations.OnlyLoadAndStoreReachDataMemory : Prop :=
  (∀ (s : State) (m : Memory), s.pc.toNat < s.params.imemWords → (s.setImem m).fetch = m.read s.pc.toNat) ∧
  (∀ (rd rs : RegNum) (imm : Imm) (s : State) (v : Word),
    (effectiveAddr (s.readReg rs) imm).toNat < s.params.dmemWords →
    s.dmem.read (effectiveAddr (s.readReg rs) imm).toNat = some v →
    ∃ t, exec (.lw rd rs imm) s = .next t ∧ Writes rd v (s.pc + 1) s t) ∧
  (∀ (rd rs : RegNum) (imm : Imm) (s : State),
    (effectiveAddr (s.readReg rs) imm).toNat < s.params.dmemWords →
    ∃ t, exec (.sw rd rs imm) s = .next t ∧ Stores (effectiveAddr (s.readReg rs) imm).toNat (s.readReg rd) s t) ∧
  (∀ (i : Instr) (s : State) (m : Memory), (∀ rd rs imm, i ≠ .lw rd rs imm ∧ i ≠ .sw rd rs imm) →
    exec i (s.setDmem m) = mapNext (fun t => t.setDmem m) (exec i s) ∧
    ∀ t, exec i s = .next t → t.dmem = s.dmem) ∧
  (∀ (i : Instr) (s : State) (m : Memory), exec i (s.setImem m) = mapNext (fun t => t.setImem m) (exec i s)) ∧
  (∀ (src : Source) (s : State) (m n : Memory), enterInterrupt src ((s.setDmem m).setImem n) =
    mapNext (fun t => (t.setDmem m).setImem n) (enterInterrupt src s))

/-- A load that follows a store at once, with the same base register and offset, delivers the word stored, whatever
the registers are, but for the input port as a base, which may have moved (rule R72, decision D32; the address and its
admission are decisions D7 and D6; the port's samples are assumption log 6). -/
def Obligations.LoadAfterStoreDeliversTheWord : Prop :=
  ∀ (rd rs rd' : RegNum) (imm : Imm) (s : State), rs ≠ 62 →
    (effectiveAddr (s.readReg rs) imm).toNat < s.params.dmemWords →
    ∃ t u, exec (.sw rd rs imm) s = .next t ∧ exec (.lw rd' rs imm) t = .next u ∧
      Writes rd' (s.readReg rd) (t.pc + 1) t u

/-! ## Register-format arithmetic and logic (`spec/40_alu_register.md`) -/

/-- `add`, `sub` and `inc` (rules R112, R118, R120) and `neg` (decision D9) complete from every state, with the low 32
bits of the exact sum or difference (rule R111, decision D8), and change nothing else (rule R110). Two reads of `ip`
are one sample by decision D21; the unused field of `inc` is decision D11. -/
def Obligations.RegisterArithmeticResults : Prop :=
  ∀ (rd rs rt : RegNum) (s : State),
    (encode (.add rd rs rt) = 0x0#4 ++ rd ++ rs ++ rt ++ 0b0000000000#10 ∧
      ∃ t, exec (.add rd rs rt) s = .next t ∧
        Writes rd (BitVec.ofNat 32 ((s.readReg rs).toNat + (s.readReg rt).toNat)) (s.pc + 1) s t) ∧
    (encode (.sub rd rs rt) = 0x0#4 ++ rd ++ rs ++ rt ++ 0b0000000110#10 ∧
      ∃ t, exec (.sub rd rs rt) s = .next t ∧
        Writes rd (BitVec.ofInt 32 ((s.readReg rs).toNat - (s.readReg rt).toNat)) (s.pc + 1) s t) ∧
    (encode (.inc rd rs) = 0x0#4 ++ rd ++ rs ++ 0#6 ++ 0b0000000111#10 ∧
      ∃ t, exec (.inc rd rs) s = .next t ∧
        Writes rd (BitVec.ofNat 32 ((s.readReg rs).toNat + 1)) (s.pc + 1) s t) ∧
    ∃ t, exec (.neg rd rt) s = .next t ∧
      Writes rd (BitVec.ofInt 32 (-((s.readReg rt).toNat : Int))) (s.pc + 1) s t

/-- `and`, `or`, `xor`, `nand` and `nor` (rules R113 to R117) complete from every state, with the operation on each of
the 32 bits, and change nothing else (rule R110). That two reads of `ip` in one `xor` are one sample is decision D21,
for the other four too (assumption log 6). -/
def Obligations.RegisterLogicResults : Prop :=
  ∀ (rd rs rt : RegNum) (s : State),
    (encode (.and rd rs rt) = 0x0#4 ++ rd ++ rs ++ rt ++ 0b0000000001#10 ∧
      ∃ t v, exec (.and rd rs rt) s = .next t ∧ Writes rd v (s.pc + 1) s t ∧
        ∀ k < 32, v.getLsbD k = ((s.readReg rs).getLsbD k && (s.readReg rt).getLsbD k)) ∧
    (encode (.or rd rs rt) = 0x0#4 ++ rd ++ rs ++ rt ++ 0b0000000010#10 ∧
      ∃ t v, exec (.or rd rs rt) s = .next t ∧ Writes rd v (s.pc + 1) s t ∧
        ∀ k < 32, v.getLsbD k = ((s.readReg rs).getLsbD k || (s.readReg rt).getLsbD k)) ∧
    (encode (.xor rd rs rt) = 0x0#4 ++ rd ++ rs ++ rt ++ 0b0000000011#10 ∧
      ∃ t v, exec (.xor rd rs rt) s = .next t ∧ Writes rd v (s.pc + 1) s t ∧
        ∀ k < 32, v.getLsbD k = ((s.readReg rs).getLsbD k != (s.readReg rt).getLsbD k)) ∧
    (encode (.nand rd rs rt) = 0x0#4 ++ rd ++ rs ++ rt ++ 0b0000000100#10 ∧
      ∃ t v, exec (.nand rd rs rt) s = .next t ∧ Writes rd v (s.pc + 1) s t ∧
        ∀ k < 32, v.getLsbD k = !((s.readReg rs).getLsbD k && (s.readReg rt).getLsbD k)) ∧
    (encode (.nor rd rs rt) = 0x0#4 ++ rd ++ rs ++ rt ++ 0b0000000101#10 ∧
      ∃ t v, exec (.nor rd rs rt) s = .next t ∧ Writes rd v (s.pc + 1) s t ∧
        ∀ k < 32, v.getLsbD k = !((s.readReg rs).getLsbD k || (s.readReg rt).getLsbD k))

/-! ## Multiply and divide (`spec/41_mult_div.md`) -/

/-- `mult` and `multi` complete from every state: the product of the low bytes, and of the low half and the immediate,
as unsigned numbers, in the whole register (rules R133, R135, decisions D7, D13; two reads of `ip` are one sample by
decision D21). -/
def Obligations.MultiplyResults : Prop :=
  ∀ (rd rs rt : RegNum) (imm : Imm) (s : State),
    (∃ t, exec (.mult rd rs rt) s = .next t ∧
      Writes rd (BitVec.ofNat 32 (((s.readReg rs).toNat % 256) * ((s.readReg rt).toNat % 256))) (s.pc + 1) s t) ∧
    ∃ t, exec (.multi rd rs imm) s = .next t ∧
      Writes rd (BitVec.ofNat 32 (((s.readReg rs).toNat % 65536) * imm.toNat)) (s.pc + 1) s t

/-- `div` and `divi` complete from every state: the quotient in bits 31:16 and the remainder in bits 15:0, of the low
halves as unsigned numbers, the divisor of `divi` being the immediate (rules R134, R136, decisions D7, D14); for a
divisor 0 the free value `DIV0` of the dividend (rule R132, decision D15; assumption log 9). Two reads of `ip` are one
sample by decision D21. -/
def Obligations.DivideResults : Prop :=
  ∀ (rd rs rt : RegNum) (imm : Imm) (s : State),
    let a := (s.readReg rs).toNat % 65536
    let b := (s.readReg rt).toNat % 65536
    (b ≠ 0 → ∃ t, exec (.div rd rs rt) s = .next t ∧
      Writes rd (BitVec.ofNat 32 ((a / b) * 65536 + a % b)) (s.pc + 1) s t) ∧
    (b = 0 → ∃ t, exec (.div rd rs rt) s = .next t ∧
      Writes rd (Config.div0 (BitVec.ofNat 16 a)) (s.pc + 1) s t) ∧
    (imm.toNat ≠ 0 → ∃ t, exec (.divi rd rs imm) s = .next t ∧
      Writes rd (BitVec.ofNat 32 ((a / imm.toNat) * 65536 + a % imm.toNat)) (s.pc + 1) s t) ∧
    (imm.toNat = 0 → ∃ t, exec (.divi rd rs imm) s = .next t ∧
      Writes rd (Config.div0 (BitVec.ofNat 16 a)) (s.pc + 1) s t)

/-- The array of rule R130, a row of ANDs for each bit of one operand, added with a shift, delivers the product that
the model's multiplier delivers (unsigned, decision D13). -/
def Obligations.ArrayMultiplierRefinesMultiplier : Prop :=
  ∀ a b : BitVec 16, (multiplier a b).toNat = arrayMultiply 16 a.toNat b.toNat

/-- The restoring divider of rule R137, sixteen stages, delivers the quotient and the remainder that the model's
divider delivers, for every divisor but 0 (rule R131). The stage is the model's reading of the source's loose prose
(conflict C13, assumption log 19). -/
def Obligations.RestoringDividerRefinesDivider : Prop :=
  ∀ a b : BitVec 16, b ≠ 0 →
    (divider a b).toNat =
      (restoringDivide 16 a.toNat b.toNat (0, 0)).1 * 65536 + (restoringDivide 16 a.toNat b.toNat (0, 0)).2

/-! ## Shifts and rotate (`spec/42_shift_rotate.md`) -/

/-- `rot`, `sll`, `srl` and `sra` complete from every state, with the source register rotated or shifted by the amount
as arithmetic on all 32 bits says (rules R151 to R154, decision D10). -/
def Obligations.ShiftResults : Prop :=
  ∀ (rd rt : RegNum) (n : Shamt) (s : State),
    (∃ t v, exec (.rot rd rt n) s = .next t ∧ Writes rd v (s.pc + 1) s t ∧
      v.toNat = (s.readReg rt).toNat * 2 ^ n.toNat % 2 ^ 32 + (s.readReg rt).toNat / 2 ^ (32 - n.toNat)) ∧
    (∃ t v, exec (.sll rd rt n) s = .next t ∧ Writes rd v (s.pc + 1) s t ∧
      v.toNat = (s.readReg rt).toNat * 2 ^ n.toNat % 2 ^ 32) ∧
    (∃ t v, exec (.srl rd rt n) s = .next t ∧ Writes rd v (s.pc + 1) s t ∧
      v.toNat = (s.readReg rt).toNat / 2 ^ n.toNat) ∧
    (∃ t v, exec (.sra rd rt n) s = .next t ∧ Writes rd v (s.pc + 1) s t ∧
      v.toInt = (s.readReg rt).toInt / 2 ^ n.toNat)

/-! ## Immediate arithmetic and logic (`spec/43_alu_immediate.md`) -/

/-- `addi` completes from every state, with the sum of the register and the immediate as a two's complement number,
modulo 2^32 (rule R161, decisions D7, D8). -/
def Obligations.AddImmediateResult : Prop :=
  ∀ (rd rs : RegNum) (imm : Imm) (s : State),
    ∃ t, exec (.addi rd rs imm) s = .next t ∧
      Writes rd (BitVec.ofInt 32 ((s.readReg rs).toInt + imm.toInt)) (s.pc + 1) s t

/-- `andi`, `ori`, `xori`, `nandi` and `nori` complete from every state, with the operation on each of the 32 bits, the
immediate's bit 15 standing for every bit above it (rules R162 to R166, decision D7). -/
def Obligations.LogicImmediateResults : Prop :=
  ∀ (rd rs : RegNum) (imm : Imm) (s : State),
    (∃ t v, exec (.andi rd rs imm) s = .next t ∧ Writes rd v (s.pc + 1) s t ∧
      ∀ k < 32, v.getLsbD k = ((s.readReg rs).getLsbD k && imm.getLsbD (min k 15))) ∧
    (∃ t v, exec (.ori rd rs imm) s = .next t ∧ Writes rd v (s.pc + 1) s t ∧
      ∀ k < 32, v.getLsbD k = ((s.readReg rs).getLsbD k || imm.getLsbD (min k 15))) ∧
    (∃ t v, exec (.xori rd rs imm) s = .next t ∧ Writes rd v (s.pc + 1) s t ∧
      ∀ k < 32, v.getLsbD k = ((s.readReg rs).getLsbD k != imm.getLsbD (min k 15))) ∧
    (∃ t v, exec (.nandi rd rs imm) s = .next t ∧ Writes rd v (s.pc + 1) s t ∧
      ∀ k < 32, v.getLsbD k = !((s.readReg rs).getLsbD k && imm.getLsbD (min k 15))) ∧
    (∃ t v, exec (.nori rd rs imm) s = .next t ∧ Writes rd v (s.pc + 1) s t ∧
      ∀ k < 32, v.getLsbD k = !((s.readReg rs).getLsbD k || imm.getLsbD (min k 15)))

/-- The four instructions of rule R167 load any 32-bit constant into any of the registers 1 to 59, the high part
corrected by one where the low part is negative as an immediate (decision D7). The two shifts move all 32 bits, across
bits 15 and 16 too (rules R150, R152, decision D10), and the sum wraps (decision D8); assumption log 17 covers these
decisions. -/
def Obligations.FourInstructionsBuildAnyConstant : Prop :=
  ∀ (rd : RegNum) (high low : Imm) (s : State), Writable rd →
    let high' := if low.toNat < 0x8000 then high else high + 1
    ∃ t u v z, exec (.ori rd 0 high') s = .next t ∧ exec (.sll rd rd 15) t = .next u ∧
      exec (.sll rd rd 1) u = .next v ∧ exec (.addi rd rd low) v = .next z ∧ z.readReg rd = high ++ low

/-! ## Load and store (`spec/44_load_store.md`) -/

/-- `sw` completes when its address is below `DMEM_WORDS`: the word at the address is the register `rd` names, every
other word and every register is as before; else it is refused (rules R64, R67, R170, decisions D6, D7). -/
def Obligations.StoreWordResult : Prop :=
  ∀ (rd rs : RegNum) (imm : Imm) (s : State),
    let ea := effectiveAddr (s.readReg rs) imm
    ea = BitVec.ofInt 32 ((s.readReg rs).toNat + imm.toInt) ∧
    (ea.toNat < s.params.dmemWords →
      ∃ t, exec (.sw rd rs imm) s = .next t ∧ Stores ea.toNat (s.readReg rd) s t) ∧
    (s.params.dmemWords ≤ ea.toNat → exec (.sw rd rs imm) s = .refused .dataAddressOutOfRange)

/-- `lw` completes when its address is below `DMEM_WORDS`: it delivers the word at the address, or, where nothing has
been written, the free value `Config.unwrittenWord` (rule R77, decision D34; assumption log 2); else it is refused
(rules R65, R66, R171, decisions D6, D7). -/
def Obligations.LoadWordResult : Prop :=
  ∀ (rd rs : RegNum) (imm : Imm) (s : State),
    let ea := effectiveAddr (s.readReg rs) imm
    (ea.toNat < s.params.dmemWords →
      ∃ t, exec (.lw rd rs imm) s = .next t ∧
        Writes rd ((s.dmem.read ea.toNat).getD (Config.unwrittenWord ea.toNat)) (s.pc + 1) s t) ∧
    (s.params.dmemWords ≤ ea.toNat → exec (.lw rd rs imm) s = .refused .dataAddressOutOfRange)

/-- A push and a pop of rule R172: `addi sp, sp, -1`; `sw X, sp, 0`; `lw Y, sp, 0`; `addi sp, sp, 1` move the register
X to the register Y and leave `sp` as it was, for every register X but `sp` and the input port (decisions D6, D7, D8;
the port's samples are assumption log 6). -/
def Obligations.PushThenPopMovesTheWord : Prop :=
  ∀ (x y : RegNum) (s : State), x ≠ 51 → x ≠ 62 → Writable y → y ≠ 51 →
    1 ≤ (s.readReg 51).toNat → (s.readReg 51).toNat ≤ s.params.dmemWords →
    ∃ t u v z, exec (.addi 51 51 0xFFFF) s = .next t ∧ exec (.sw x 51 0) t = .next u ∧
      exec (.lw y 51 0) u = .next v ∧ exec (.addi 51 51 1) v = .next z ∧
      z.readReg y = s.readReg x ∧ z.readReg 51 = s.readReg 51

/-! ## Control transfer (`spec/45_control_transfer.md`) -/

/-- `blt` completes from every state, taken when bit 31 of the wrapped difference is 1 (rule R180, decision D16; two
reads of `ip` are one sample by decision D21). -/
def Obligations.BranchIfLessResult : Prop :=
  ∀ (rd rs : RegNum) (target : Addr) (s : State),
    ∃ t, exec (.blt rd rs target) s = .next t ∧
      GoesTo (if 2 ^ 31 ≤ ((s.readReg rd).toNat + 2 ^ 32 - (s.readReg rs).toNat) % 2 ^ 32 then target else s.pc + 1) s t

/-- `blt` is the signed comparison when the true difference fits 32 bits, and its opposite when it does not (rule
R180, decision D16; two reads of `ip` are one sample by decision D21). -/
def Obligations.BranchIfLessIsSignedUnlessItOverflows : Prop :=
  ∀ (rd rs : RegNum) (target : Addr) (s : State),
    let a := (s.readReg rd).toInt
    let b := (s.readReg rs).toInt
    (-2 ^ 31 ≤ a - b ∧ a - b < 2 ^ 31 →
      ∃ t, exec (.blt rd rs target) s = .next t ∧ t.pc = if a < b then target else s.pc + 1) ∧
    (¬(-2 ^ 31 ≤ a - b ∧ a - b < 2 ^ 31) →
      ∃ t, exec (.blt rd rs target) s = .next t ∧ t.pc = if a < b then s.pc + 1 else target)

/-- `beq` completes from every state, taken when all 32 bits are equal, which is when the wrapped difference is 0 (rule
R181; two reads of `ip` are one sample by decision D21). -/
def Obligations.BranchIfEqualResult : Prop :=
  ∀ (rd rs : RegNum) (target : Addr) (s : State),
    ∃ t, exec (.beq rd rs target) s = .next t ∧
      GoesTo (if ((s.readReg rd).toNat + 2 ^ 32 - (s.readReg rs).toNat) % 2 ^ 32 = 0 then target else s.pc + 1) s t

/-- `j` completes from every state: `pc` is the target, no register is written (rule R182;
that the target is word[15:0] and the unused bits are 0 are decisions D19 and D11). -/
def Obligations.JumpResult : Prop :=
  ∀ (target : Addr) (s : State),
    encode (.j target) = 0x1#4 ++ 0#12 ++ target ∧
    ∃ t, exec (.j target) s = .next t ∧ GoesTo target s t

/-- `jal` completes from every state: the link is the address after its own, modulo 2^16, zero-extended (rule R184,
decisions D3, D17). -/
def Obligations.JumpAndLinkResult : Prop :=
  ∀ (rd : RegNum) (target : Addr) (s : State),
    ∃ t, exec (.jal rd target) s = .next t ∧
      Writes rd (BitVec.ofNat 32 ((s.pc.toNat + 1) % 65536)) target s t

/-- `jriw` completes when the register jumped to is below 2^16: it jumps to the old value and writes the sign-extended
immediate, with all effects of the register written; else it is refused and nothing is written (rule R183, decisions
D7, D18). -/
def Obligations.JumpRegisterWriteImmediateResult : Prop :=
  ∀ (rd rs : RegNum) (imm : Imm) (s : State),
    ((s.readReg rs).toNat < 65536 → ∃ t, exec (.jriw rd rs imm) s = .next t ∧
      Writes rd (BitVec.ofInt 32 imm.toInt) (BitVec.ofNat 16 (s.readReg rs).toNat) s t) ∧
    (65536 ≤ (s.readReg rs).toNat → exec (.jriw rd rs imm) s = .refused .jumpTargetOutOfRange)

/-! ## Interrupts (`spec/60_exceptions.md`) -/

/-- The request and the selection (rules R205, R208; decisions D27, D28): some source is selected, and `INT_REQ` is up,
exactly when no interrupt is in service and a pending flag is enabled; the one selected is pending, enabled, and none
that is comes before it in INT_PRIORITY, which the model holds as a list (assumption log 8). -/
def Obligations.SelectionFollowsRequestAndPriority : Prop :=
  ∀ s : State,
    let up := s.ins = false ∧
      ((s.pending.t1 = true ∧ s.rc.getLsbD 4 = true) ∨ (s.pending.t2 = true ∧ s.rc.getLsbD 5 = true) ∨
        (s.pending.e1 = true ∧ s.rc.getLsbD 6 = true) ∨ (s.pending.e2 = true ∧ s.rc.getLsbD 7 = true))
    (s.intReq = true ↔ up) ∧ (s.selected ≠ none ↔ up) ∧
    ∀ src, s.selected = some src →
      s.pending.get src = true ∧ s.rc.getLsbD (resetBitNumber src + 4) = true ∧
      ∀ q, s.pending.get q = true → s.rc.getLsbD (resetBitNumber q + 4) = true →
        s.params.priority.idxOf src ≤ s.params.priority.idxOf q

/-- Interrupt entry (rules R206, R207, R222; decisions D26, D27, D35): on the core's turn, with a source selected
whose service address is below 2^16, the step saves `pc` in `ipc`, sets `INS` and loads `pc` from the source's address
register; every other register, every flag, both memories and the outputs are as before, and nothing is selected after
it. That the input port's next sample is as before too, an entry taking none, is the model's choice (assumption log
6). -/
def Obligations.InterruptEntryResult : Prop :=
  ∀ (s : State) (src : Source), s.turn = .core → s.selected = some src →
    (s.readReg (serviceRegister src)).toNat < 65536 →
    ∃ t, step s = .next t ∧ t.ipc = s.pc ∧ t.ins = true ∧
      t.pc = BitVec.ofNat 16 (s.readReg (serviceRegister src)).toNat ∧
      (∀ r : RegNum, r ≠ 63 → t.readReg r = s.readReg r) ∧ t.readReg 63 = BitVec.ofNat 32 s.pc.toNat ∧
      t.pending = s.pending ∧ SameData s t ∧ t.imem = s.imem ∧ t.outputs = s.outputs ∧ t.params = s.params ∧
      t.selected = none

/-- A service address at or above 2^16 is refused at the entry (rule R207, decision D35). -/
def Obligations.InterruptEntryRefusesWideAddress : Prop :=
  ∀ (s : State) (src : Source), s.turn = .core → s.selected = some src →
    65536 ≤ (s.readReg (serviceRegister src)).toNat → step s = .refused .vectorOutOfRange

/-- From entry until Retfi (rules R209, R210; decisions D27, D36): in service no source is selected, so a step enters
no interrupt and leaves `ipc` alone, and service has ended after a step exactly when the step ran an instruction that
wrote `rc` with a bit of 3:0 at 1. -/
def Obligations.ServiceLastsUntilAFlagIsReset : Prop :=
  ∀ s t : State, s.ins = true → step s = .next t →
    s.selected = none ∧ t.ipc = s.ipc ∧
    (t.ins = false ↔ RanWriting 59 s t ∧ t.rc.extractLsb' 0 4 ≠ 0#4)

/-- `ipc` is written by the hardware only, at interrupt entry, with the address of the instruction that would have run
next, while none is in service (rule R36, decisions D26, D27). -/
def Obligations.SavedPcChangesOnlyAtEntry : Prop :=
  ∀ s t : State, step s = .next t → t.ipc ≠ s.ipc →
    s.turn = .core ∧ s.selected ≠ none ∧ s.ins = false ∧ t.ins = true ∧ t.ipc = s.pc

/-- A pending flag rises only by an event of its source, and falls only by an instruction that writes `rc` with the
flag's reset bit at 1 (rules R203, R204, decisions D23, D25, D36); such a write leaves it at 0. No interrupt entry
changes a flag. -/
def Obligations.FlagsRiseByEventsAndFallByResets : Prop :=
  ∀ s t : State, step s = .next t → ∀ src : Source,
    (s.pending.get src = false → t.pending.get src = true → ∃ e, s.turn = .env e ∧ eventSource e = src) ∧
    (s.pending.get src = true → t.pending.get src = false →
      RanWriting 59 s t ∧ t.rc.getLsbD (resetBitNumber src) = true) ∧
    (RanWriting 59 s t → t.rc.getLsbD (resetBitNumber src) = true → t.pending.get src = false)

/-- Interrupt entry and the return idiom `jriw ipc, rc, k` (rules R183, R211, R222; decisions D18, D26, D27, D36)
resume the interrupted program: `pc` is what it was, `rc` is `k` sign-extended (rule R88, decision D7), a reset bit in
`k` ends service and clears its flag, and every register but `rc`, the counters, `ip` and `ipc` is as it was before
the entry. Assumption log 17 covers these decisions. -/
def Obligations.EntryThenReturnResumes : Prop :=
  ∀ (s t : State) (src : Source) (k : Imm), enterInterrupt src s = .next t →
    ∃ u, exec (.jriw 59 63 k) t = .next u ∧ u.pc = s.pc ∧ u.rc = BitVec.ofInt 32 k.toInt ∧
      (∀ r : RegNum, r.toNat < 59 → u.readReg r = s.readReg r) ∧ SameData s u ∧ u.outputs = s.outputs ∧
      u.ins = decide (k.extractLsb' 0 4 = 0#4) ∧
      ∀ q : Source, u.pending.get q = (s.pending.get q && !k.getLsbD (resetBitNumber q))

/-! ## Timers, ports and the environment -/

/-- A tick that is enabled (rules R215, R216; decisions D22, D24; assumption log 13): at the period the counter
restarts at 0 and the timer's flag follows rule R203 (decisions D23, D25); else the counter goes up by one modulo
2^TIMER_BITS and no flag changes. The other counter, every other register, `pc`, `INS`, the memories and the outputs
are as before. The turn, the choice `latch`, and that an event takes no sample of the input port are the model's own
(assumption log 5, 7, 6). -/
def Obligations.TimerTickResult : Prop :=
  ∀ (s : State) (n : TimerId) (latch : Bool),
    let bit : Nat := match n with | .one => 12 | .two => 13
    let period : RegNum := match n with | .one => 52 | .two => 53
    let src : Source := match n with | .one => .t1 | .two => .t2
    let other : TimerId := match n with | .one => .two | .two => .one
    s.turn = .env (.tick n latch) → s.params.timerBits ≤ 32 → s.rc.getLsbD bit = true →
    (s.params.rstMode = .level → s.rc.getLsbD (bit + 2) = false) →
    ∃ t, step s = .next t ∧ SameToCore s t ∧ t.schedule = s.schedule.tail ∧ t.counter other = s.counter other ∧
      (∀ q, q ≠ src → t.pending.get q = s.pending.get q) ∧
      if (s.counter n).toNat = (s.readReg period).toNat % 2 ^ s.params.timerBits then
        t.counter n = 0 ∧ t.pending.get src = flagAfterEvent s src latch
      else
        (t.counter n).toNat = ((s.counter n).toNat + 1) % 2 ^ s.params.timerBits ∧
          t.pending.get src = s.pending.get src

/-- While TMRE is 0, or under `level` while TRST is 1, a tick is not enabled (rule R215, decisions D23, D24). That the
environment's turn then passes and changes nothing but the turns to come is the model's choice (assumption log
12, 5). -/
def Obligations.StoppedTimerKeepsItsCount : Prop :=
  ∀ (s : State) (n : TimerId) (latch : Bool),
    let bit : Nat := match n with | .one => 12 | .two => 13
    s.turn = .env (.tick n latch) →
    s.rc.getLsbD bit = false ∨ (s.params.rstMode = .level ∧ s.rc.getLsbD (bit + 2) = true) →
    step s = .next s.takeTurn

/-- An event of an external line (rules R203, R218; decisions D23, D25): the line's flag follows rule R203, and nothing
else changes. The turn, the choice `latch`, and that an event takes no sample of the input port are the model's own
(assumption log 5, 7, 6). -/
def Obligations.ExternalEventResult : Prop :=
  ∀ (s : State) (n : LineId) (latch : Bool),
    let src : Source := match n with | .one => .e1 | .two => .e2
    s.turn = .env (.external n latch) →
    ∃ t, step s = .next t ∧ SameToCore s t ∧ t.schedule = s.schedule.tail ∧ t.counter .one = s.counter .one ∧
      t.counter .two = s.counter .two ∧ t.pending.get src = flagAfterEvent s src latch ∧
      ∀ q, q ≠ src → t.pending.get q = s.pending.get q

/-- The output events are the writes of `op` (rules R6, R33, decision D21): a step that runs an instruction whose
destination is `op` adds one event, with the value `op` then holds, be it the value it held before; any other step adds
none and leaves `op` as it was. That events are recorded as a list is the model's choice (assumption log 14). -/
def Obligations.OutputEventsAreTheWritesOfOp : Prop :=
  ∀ s t : State, step s = .next t →
    (RanWriting 58 s t → t.outputs = s.outputs ++ [t.op]) ∧
    (¬RanWriting 58 s t → t.outputs = s.outputs ∧ t.op = s.op)

/-- The input port (rule R35, decision D21): a read delivers the environment's next sample, or, at the end of its
list, a free value with an index no earlier instruction has used (assumption log 6); both reads of one instruction
take one sample, so that `xor rd, ip, ip` writes 0. -/
def Obligations.InputPortIsOneSampleAnInstruction : Prop :=
  (∀ s : State, s.readReg 62 = s.portIn.head?.getD (Config.inputPort s.portDraws)) ∧
  (∀ (i : Instr) (s t : State), exec i s = .next t →
    t.portIn = s.portIn.tail ∧ t.portDraws = s.portDraws + 1) ∧
  ∀ (rd : RegNum) (s : State), ∃ t, exec (.xor rd 62 62) s = .next t ∧ Writes rd 0 (s.pc + 1) s t

/-- For a program that enables no interrupt source and reads neither tmr1, tmr2 nor ip, nothing the environment does
is visible (rule R246 (e), decision D29): an environment's turn completes and changes nothing but counters, flags,
samples and turns to come; and on the core's turn, two states that differ only in those, with the same instruction to
run, give the same answer, up to those. The turns and the samples are the model's own fields (assumption log 5, 6);
that an unwritten word reads the same in both is assumption log 2. -/
def Obligations.EnvironmentIsInvisible : Prop :=
  (∀ (s : State) (e : Event), s.turn = .env e → ∃ t, step s = .next t ∧ SameToProgram s t) ∧
  ∀ s t : State, SameToProgram s t → s.turn = .core → t.turn = .core → s.rc.extractLsb' 4 4 = 0#4 →
    (∀ w i, s.fetch = some w → decode w = .ok i → IgnoresEnvironment i) →
    SameAnswer (step s) (step t)

/-! ## The whole machine -/

/-- Every step keeps the invariant: canonical memories within their address spaces (decision D6), counters below
2^TIMER_BITS (rule R34, decision D22, assumption log 13), what `level` holds at 0 (rules R38, R41, decision D23), and
`op` as the last output event (rule R33). -/
def Obligations.EveryStepKeepsTheInvariant : Prop :=
  ∀ s t : State, s.Inv → step s = .next t → t.Inv

/-- The invariant holds at the start of every run: for all parameters within the bounds of rule R3 and every image in
canonical form within the memories (rules R49, R241, R244, decision D29); right after reset in particular. The zeros
of the counters are the model's choice (assumption log 1). -/
def Obligations.ResetMeetsTheInvariant : Prop :=
  (∀ (p : Params) (program data : Memory), ParamsOk p → program.wf = true → program.below p.imemWords = true →
    data.wf = true → data.below p.dmemWords = true → (State.launch p program data).Inv) ∧
  State.reset.Inv

/-- What the start of a run leaves, as rule R241 says (decision D29): `pc` RESET_PC and `rc` RESET_RC, both 0 by
default, the four flags and `INS` 0, r0 = 0, no request, no output event, the image in the memories; TIMER_BITS 32 and
RC_RST_MODE `level` at the defaults (rule R3, decisions D22, D23). That a run starts from parameters and an image as
`State.launch` does is assumption log 4 and 8. -/
def Obligations.ResetState : Prop :=
  (∀ (p : Params) (program data : Memory),
    let s := State.launch p program data
    s.pc = p.resetPc ∧ s.rc = p.resetRc ∧ s.pending = ⟨false, false, false, false⟩ ∧ s.ins = false ∧
    s.readReg 0 = 0 ∧ s.intReq = false ∧ s.selected = none ∧ s.outputs = [] ∧ s.params = p ∧
    s.imem = program ∧ s.dmem = data) ∧
  State.reset.pc = 0 ∧ State.reset.rc = 0 ∧ State.reset.params.timerBits = 32 ∧ State.reset.params.rstMode = .level

/-- A run that has ended at `a` stays ended, whoever's turn it is (rule R245, decision D30; the turns and the port's
samples are assumption log 5, 6): `pc` stays at `a`, no output event comes, the data memory and every register but the
counters and the input port are as before. -/
def Obligations.EndedRunStaysEnded : Prop :=
  ∀ (a : Addr) (s : State), s.Ended a →
    ∃ t, step s = .next t ∧ t.Ended a ∧ t.outputs = s.outputs ∧ SameData s t ∧
      ∀ r : RegNum, r.toNat < 60 ∨ r = 63 → t.readReg r = s.readReg r

/-! ## Registers, again -/

/-- The read-only registers (rules R22, R25): each reads its current value, a write leaves the whole state as it was
(decision D20), and an instruction that names one as its destination changes neither it, nor a counter, a flag or
`INS`, and emits nothing. The input port (62) moves on by itself (assumption log 6). What a write of `rc` does to the
counters (rule R217) is no part of it: there the destination is 59. -/
def Obligations.ReadOnlyRegistersKeepTheirValues : Prop :=
  (∀ s : State, s.readReg 0 = 0 ∧ s.readReg 60 = s.tmr1 ∧ s.readReg 61 = s.tmr2 ∧ s.readReg 62 = s.portSample ∧
    (s.readReg 63).toNat = s.ipc.toNat) ∧
  ∀ (s : State) (r : RegNum), ¬Writable r →
    (∀ v : Word, s.writeReg r v = s) ∧
    ∀ (i : Instr) (t : State), destination i = some r → exec i s = .next t →
      (∀ q : RegNum, q ≠ 62 → t.readReg q = s.readReg q) ∧ SameDevices s t ∧ t.outputs = s.outputs ∧ SameData s t

/-- The prescaler fields PR1 (bits 9:8 of `rc`) and PR2 (bits 11:10) are stored and read back, and nothing else depends
on them (rule R40): with other values in them every event, the request, the selection, the entry and every instruction
that does not read `rc` do the same, and a write of `rc` has the same other effects. -/
def Obligations.PrescalerBitsAreStoredAndDoNothing : Prop :=
  ∀ (s : State) (v w : Word), (∀ k, k < 8 ∨ 12 ≤ k → w.getLsbD k = v.getLsbD k) →
    let a := s.setRc v
    let b := s.setRc w
    (s.writeReg 59 v).readReg 59 = v ∧ (s.writeReg 59 w).readReg 59 = w ∧
    s.writeReg 59 w = (s.writeReg 59 v).setRc w ∧
    (∀ e, b.applyEvent e = (a.applyEvent e).setRc w) ∧ b.intReq = a.intReq ∧ b.selected = a.selected ∧
    (∀ src, enterInterrupt src b = mapNext (fun t => t.setRc w) (enterInterrupt src a)) ∧
    ∀ i, (59 : RegNum) ∉ sourceRegisters i →
      exec i b = if destination i = some 59 then exec i a else mapNext (fun t => t.setRc w) (exec i a)
end

