-- ==== Sys2Proof/Laws/Encoding.lean ====
section
/-! SUPPORT. The fields of an encoded word, a word put together from its own fields, and the decoder's answer for each
opcode and each function code. -/

namespace Sys2Proof

@[simp] theorem encodeR_fieldOpcode (rd rs rt : RegNum) (f : BitVec 10) : fieldOpcode (encodeR rd rs rt f) = 0x0#4 := by
  rw [fieldOpcode, encodeR, BitVec.extractLsb'_append_eq_of_le (by omega),
    BitVec.extractLsb'_append_eq_of_le (by omega),
    BitVec.extractLsb'_append_eq_of_le (by omega),
    BitVec.extractLsb'_append_eq_of_le (by omega)]
  simp

@[simp] theorem encodeR_fieldRd (rd rs rt : RegNum) (f : BitVec 10) : fieldRd (encodeR rd rs rt f) = rd := by
  rw [fieldRd, encodeR, BitVec.extractLsb'_append_eq_of_le (by omega),
    BitVec.extractLsb'_append_eq_of_le (by omega),
    BitVec.extractLsb'_append_eq_of_le (by omega),
    BitVec.extractLsb'_append_eq_of_add_le (by omega)]
  simp

@[simp] theorem encodeR_fieldRs (rd rs rt : RegNum) (f : BitVec 10) : fieldRs (encodeR rd rs rt f) = rs := by
  rw [fieldRs, encodeR, BitVec.extractLsb'_append_eq_of_le (by omega),
    BitVec.extractLsb'_append_eq_of_le (by omega),
    BitVec.extractLsb'_append_eq_of_add_le (by omega)]
  simp

@[simp] theorem encodeR_fieldRt (rd rs rt : RegNum) (f : BitVec 10) : fieldRt (encodeR rd rs rt f) = rt := by
  rw [fieldRt, encodeR, BitVec.extractLsb'_append_eq_of_le (by omega),
    BitVec.extractLsb'_append_eq_of_add_le (by omega)]
  simp

@[simp] theorem encodeR_fieldFunct (rd rs rt : RegNum) (f : BitVec 10) : fieldFunct (encodeR rd rs rt f) = f := by
  rw [fieldFunct, encodeR, BitVec.extractLsb'_append_eq_of_add_le (by omega)]
  simp

@[simp] theorem encodeI_fieldOpcode (op : BitVec 4) (rd rs : RegNum) (imm : Imm) : fieldOpcode (encodeI op rd rs imm) = op := by
  rw [fieldOpcode, encodeI, BitVec.extractLsb'_append_eq_of_le (by omega),
    BitVec.extractLsb'_append_eq_of_le (by omega),
    BitVec.extractLsb'_append_eq_of_le (by omega)]
  simp

@[simp] theorem encodeI_fieldRd (op : BitVec 4) (rd rs : RegNum) (imm : Imm) : fieldRd (encodeI op rd rs imm) = rd := by
  rw [fieldRd, encodeI, BitVec.extractLsb'_append_eq_of_le (by omega),
    BitVec.extractLsb'_append_eq_of_le (by omega),
    BitVec.extractLsb'_append_eq_of_add_le (by omega)]
  simp

@[simp] theorem encodeI_fieldRs (op : BitVec 4) (rd rs : RegNum) (imm : Imm) : fieldRs (encodeI op rd rs imm) = rs := by
  rw [fieldRs, encodeI, BitVec.extractLsb'_append_eq_of_le (by omega),
    BitVec.extractLsb'_append_eq_of_add_le (by omega)]
  simp

@[simp] theorem encodeI_fieldImm (op : BitVec 4) (rd rs : RegNum) (imm : Imm) : fieldImm (encodeI op rd rs imm) = imm := by
  rw [fieldImm, encodeI, BitVec.extractLsb'_append_eq_of_add_le (by omega)]
  simp

@[simp] theorem encodeJ_fieldOpcode (op : BitVec 4) (rd : RegNum) (target : Addr) : fieldOpcode (encodeJ op rd target) = op := by
  rw [fieldOpcode, encodeJ, BitVec.extractLsb'_append_eq_of_le (by omega),
    BitVec.extractLsb'_append_eq_of_le (by omega),
    BitVec.extractLsb'_append_eq_of_le (by omega)]
  simp

@[simp] theorem encodeJ_fieldRd (op : BitVec 4) (rd : RegNum) (target : Addr) : fieldRd (encodeJ op rd target) = rd := by
  rw [fieldRd, encodeJ, BitVec.extractLsb'_append_eq_of_le (by omega),
    BitVec.extractLsb'_append_eq_of_le (by omega),
    BitVec.extractLsb'_append_eq_of_add_le (by omega)]
  simp

@[simp] theorem encodeJ_fieldRs (op : BitVec 4) (rd : RegNum) (target : Addr) : fieldRs (encodeJ op rd target) = 0#6 := by
  rw [fieldRs, encodeJ, BitVec.extractLsb'_append_eq_of_le (by omega),
    BitVec.extractLsb'_append_eq_of_add_le (by omega)]
  simp

@[simp] theorem encodeJ_fieldImm (op : BitVec 4) (rd : RegNum) (target : Addr) : fieldImm (encodeJ op rd target) = target := by
  rw [fieldImm, encodeJ, BitVec.extractLsb'_append_eq_of_add_le (by omega)]
  simp

/-- The select, shift mode and amount fields of a shift's word. -/
@[simp] theorem encodeR_shift_fields (rd rs rt : RegNum) (mode : BitVec 2) (shamt : Shamt) :
    fieldSelect (encodeR rd rs rt (shiftFunct mode shamt)) = 0b0001#4 ∧
    fieldShiftMode (encodeR rd rs rt (shiftFunct mode shamt)) = mode ∧
    fieldShamt (encodeR rd rs rt (shiftFunct mode shamt)) = shamt := by
  refine ⟨?_, ?_, ?_⟩
  · rw [fieldSelect, encodeR, shiftFunct, BitVec.extractLsb'_append_eq_of_add_le (by omega),
      BitVec.extractLsb'_append_eq_of_le (by omega), BitVec.extractLsb'_append_eq_of_le (by omega)]
    simp
  · rw [fieldShiftMode, encodeR, shiftFunct, BitVec.extractLsb'_append_eq_of_add_le (by omega),
      BitVec.extractLsb'_append_eq_of_le (by omega), BitVec.extractLsb'_append_eq_of_add_le (by omega)]
    simp
  · rw [fieldShamt, encodeR, shiftFunct, BitVec.extractLsb'_append_eq_of_add_le (by omega),
      BitVec.extractLsb'_append_eq_of_add_le (by omega)]
    simp

/-- The select field is part of the function code. -/
theorem fieldSelect_eq (w : Word) : fieldSelect w = (fieldFunct w).extractLsb' 6 4 := by
  apply BitVec.eq_of_getLsbD_eq
  intro k hk
  simp only [fieldSelect, fieldFunct, BitVec.getLsbD_extractLsb']
  have : 6 + k < 10 := by omega
  simp [this]

/-- The function code of a shift, put together from its parts. -/
theorem shiftFunct_fields (w : Word) (h : fieldSelect w = 0b0001#4) :
    shiftFunct (fieldShiftMode w) (fieldShamt w) = fieldFunct w := by
  rw [shiftFunct, ← h, fieldSelect, fieldShiftMode, fieldShamt, fieldFunct,
    BitVec.extractLsb'_append_extractLsb'_eq_extractLsb' (by omega),
    BitVec.extractLsb'_append_extractLsb'_eq_extractLsb' (by omega)]

/-- A word with opcode 0000 is put together from its fields. -/
theorem encodeR_fields (w : Word) (h : fieldOpcode w = 0x0#4) :
    encodeR (fieldRd w) (fieldRs w) (fieldRt w) (fieldFunct w) = w := by
  rw [encodeR, ← h, fieldOpcode, fieldRd, fieldRs, fieldRt, fieldFunct,
    BitVec.extractLsb'_append_extractLsb'_eq_extractLsb' (by omega),
    BitVec.extractLsb'_append_extractLsb'_eq_extractLsb' (by omega),
    BitVec.extractLsb'_append_extractLsb'_eq_extractLsb' (by omega),
    BitVec.extractLsb'_append_extractLsb'_eq_extractLsb' (by omega)]
  simp

/-- A word is put together from the fields of the I format. -/
theorem encodeI_fields (w : Word) : encodeI (fieldOpcode w) (fieldRd w) (fieldRs w) (fieldImm w) = w := by
  rw [encodeI, fieldOpcode, fieldRd, fieldRs, fieldImm,
    BitVec.extractLsb'_append_extractLsb'_eq_extractLsb' (by omega),
    BitVec.extractLsb'_append_extractLsb'_eq_extractLsb' (by omega),
    BitVec.extractLsb'_append_extractLsb'_eq_extractLsb' (by omega)]
  simp

/-! ## The decoder -/

/-- The decoder's answer, opcode by opcode (rule R83). -/
theorem decode_cases (w : Word) :
    (fieldOpcode w = 0x0#4 ∧ decode w = decodeRegister w) ∨
    (fieldOpcode w = 0x1#4 ∧ decode w = decodeJ w) ∨
    (fieldOpcode w = 0x2#4 ∧ decode w = .ok (.sw (fieldRd w) (fieldRs w) (fieldImm w))) ∨
    (fieldOpcode w = 0x3#4 ∧ decode w = .ok (.lw (fieldRd w) (fieldRs w) (fieldImm w))) ∨
    (fieldOpcode w = 0x4#4 ∧ decode w = .ok (.blt (fieldRd w) (fieldRs w) (fieldImm w))) ∨
    (fieldOpcode w = 0x5#4 ∧ decode w = .ok (.beq (fieldRd w) (fieldRs w) (fieldImm w))) ∨
    (fieldOpcode w = 0x6#4 ∧ decode w = .ok (.jriw (fieldRd w) (fieldRs w) (fieldImm w))) ∨
    (fieldOpcode w = 0x7#4 ∧ decode w = decodeJal w) ∨
    (fieldOpcode w = 0x8#4 ∧ decode w = .ok (.addi (fieldRd w) (fieldRs w) (fieldImm w))) ∨
    (fieldOpcode w = 0x9#4 ∧ decode w = .ok (.andi (fieldRd w) (fieldRs w) (fieldImm w))) ∨
    (fieldOpcode w = 0xA#4 ∧ decode w = .ok (.ori (fieldRd w) (fieldRs w) (fieldImm w))) ∨
    (fieldOpcode w = 0xB#4 ∧ decode w = .ok (.xori (fieldRd w) (fieldRs w) (fieldImm w))) ∨
    (fieldOpcode w = 0xC#4 ∧ decode w = .ok (.nandi (fieldRd w) (fieldRs w) (fieldImm w))) ∨
    (fieldOpcode w = 0xD#4 ∧ decode w = .ok (.nori (fieldRd w) (fieldRs w) (fieldImm w))) ∨
    (fieldOpcode w = 0xE#4 ∧ decode w = .ok (.multi (fieldRd w) (fieldRs w) (fieldImm w))) ∨
    (fieldOpcode w = 0xF#4 ∧ decode w = .ok (.divi (fieldRd w) (fieldRs w) (fieldImm w))) := by
  have opcodes : ∀ op : BitVec 4,
    op = 0x0#4 ∨ op = 0x1#4 ∨ op = 0x2#4 ∨ op = 0x3#4 ∨ op = 0x4#4 ∨ op = 0x5#4 ∨ op = 0x6#4 ∨ op = 0x7#4 ∨
    op = 0x8#4 ∨ op = 0x9#4 ∨ op = 0xA#4 ∨ op = 0xB#4 ∨ op = 0xC#4 ∨ op = 0xD#4 ∨ op = 0xE#4 ∨
    op = 0xF#4 := by decide
  unfold decode
  obtain h | h | h | h | h | h | h | h | h | h | h | h | h | h | h | h := opcodes (fieldOpcode w) <;> rw [h] <;>
    repeat (first | exact .inl ⟨rfl, rfl⟩ | exact ⟨rfl, rfl⟩ | refine .inr ?_)

/-- The decoder's answer for a word of the register format, function code by function code (rule R91). -/
theorem decodeRegister_cases (w : Word) :
    (fieldSelect w = 0b0001#4 ∧ decodeRegister w = decodeShift w) ∨
    (fieldFunct w = 0x000#10 ∧ decodeRegister w = .ok (.add (fieldRd w) (fieldRs w) (fieldRt w))) ∨
    (fieldFunct w = 0x001#10 ∧ decodeRegister w = .ok (.and (fieldRd w) (fieldRs w) (fieldRt w))) ∨
    (fieldFunct w = 0x002#10 ∧ decodeRegister w = .ok (.or (fieldRd w) (fieldRs w) (fieldRt w))) ∨
    (fieldFunct w = 0x003#10 ∧ decodeRegister w = .ok (.xor (fieldRd w) (fieldRs w) (fieldRt w))) ∨
    (fieldFunct w = 0x004#10 ∧ decodeRegister w = .ok (.nand (fieldRd w) (fieldRs w) (fieldRt w))) ∨
    (fieldFunct w = 0x005#10 ∧ decodeRegister w = .ok (.nor (fieldRd w) (fieldRs w) (fieldRt w))) ∨
    (fieldFunct w = 0x006#10 ∧ decodeRegister w = .ok (.sub (fieldRd w) (fieldRs w) (fieldRt w))) ∨
    (fieldFunct w = 0x007#10 ∧ fieldRt w = 0 ∧ decodeRegister w = .ok (.inc (fieldRd w) (fieldRs w))) ∨
    (fieldFunct w = 0x007#10 ∧ fieldRt w ≠ 0 ∧ decodeRegister w = .error .incRtNotZero) ∨
    (fieldFunct w = 0x088#10 ∧ decodeRegister w = .ok (.mult (fieldRd w) (fieldRs w) (fieldRt w))) ∨
    (fieldFunct w = 0x0C9#10 ∧ decodeRegister w = .ok (.div (fieldRd w) (fieldRs w) (fieldRt w))) ∨
    (fieldSelect w ≠ 0b0001#4 ∧ fieldFunct w ∉ [0x000#10, 0x001#10, 0x002#10, 0x003#10, 0x004#10, 0x005#10, 0x006#10,
        0x007#10, 0x088#10, 0x0C9#10] ∧ decodeRegister w = .error .unlistedFunction) := by
  unfold decodeRegister
  by_cases hs : fieldSelect w = 0b0001#4
  · exact .inl ⟨hs, if_pos hs⟩
  rw [if_neg hs]; refine .inr ?_
  by_cases h0 : fieldFunct w = 0x000#10
  · exact .inl ⟨h0, if_pos h0⟩
  rw [if_neg h0]; refine .inr ?_
  by_cases h1 : fieldFunct w = 0x001#10
  · exact .inl ⟨h1, if_pos h1⟩
  rw [if_neg h1]; refine .inr ?_
  by_cases h2 : fieldFunct w = 0x002#10
  · exact .inl ⟨h2, if_pos h2⟩
  rw [if_neg h2]; refine .inr ?_
  by_cases h3 : fieldFunct w = 0x003#10
  · exact .inl ⟨h3, if_pos h3⟩
  rw [if_neg h3]; refine .inr ?_
  by_cases h4 : fieldFunct w = 0x004#10
  · exact .inl ⟨h4, if_pos h4⟩
  rw [if_neg h4]; refine .inr ?_
  by_cases h5 : fieldFunct w = 0x005#10
  · exact .inl ⟨h5, if_pos h5⟩
  rw [if_neg h5]; refine .inr ?_
  by_cases h6 : fieldFunct w = 0x006#10
  · exact .inl ⟨h6, if_pos h6⟩
  rw [if_neg h6]; refine .inr ?_
  by_cases h7 : fieldFunct w = 0x007#10
  · rw [if_pos h7]
    by_cases hr : fieldRt w = 0
    · exact .inl ⟨h7, hr, if_pos hr⟩
    · exact .inr (.inl ⟨h7, hr, if_neg hr⟩)
  rw [if_neg h7]; refine .inr (.inr ?_)
  by_cases h8 : fieldFunct w = 0x088#10
  · exact .inl ⟨h8, if_pos h8⟩
  rw [if_neg h8]; refine .inr ?_
  by_cases h9 : fieldFunct w = 0x0C9#10
  · exact .inl ⟨h9, if_pos h9⟩
  rw [if_neg h9]
  exact .inr ⟨hs, by simp_all, rfl⟩

/-- The decoder's answer for the word of a shift (rules R87, R91, R94). -/
theorem decodeShift_cases (w : Word) :
    (fieldRs w ≠ 0 ∧ decodeShift w = .error .shiftRsNotZero) ∨
    (fieldRs w = 0 ∧ fieldShiftMode w = 0b00#2 ∧
      decodeShift w = .ok (.rot (fieldRd w) (fieldRt w) (fieldShamt w))) ∨
    (fieldRs w = 0 ∧ fieldShiftMode w = 0b01#2 ∧
      decodeShift w = .ok (.sll (fieldRd w) (fieldRt w) (fieldShamt w))) ∨
    (fieldRs w = 0 ∧ fieldShiftMode w = 0b10#2 ∧
      decodeShift w = .ok (.srl (fieldRd w) (fieldRt w) (fieldShamt w))) ∨
    (fieldRs w = 0 ∧ fieldShiftMode w = 0b11#2 ∧
      decodeShift w = .ok (.sra (fieldRd w) (fieldRt w) (fieldShamt w))) := by
  have modes : ∀ m : BitVec 2, m = 0b00#2 ∨ m = 0b01#2 ∨ m = 0b10#2 ∨ m = 0b11#2 := by decide
  unfold decodeShift
  by_cases h0 : fieldRs w = 0
  · refine .inr ?_
    rw [if_neg (not_not.2 h0)]
    obtain h | h | h | h := modes (fieldShiftMode w) <;> rw [h] <;>
      repeat (first | exact .inl ⟨h0, rfl, rfl⟩ | exact ⟨h0, rfl, rfl⟩ | refine .inr ?_)
  · exact .inl ⟨h0, if_pos h0⟩

end Sys2Proof
end

