-- ==== Sys2Proof/Laws/Memory.lean ====
section
/-! SUPPORT. What reading and writing a memory do, and that a write keeps the canonical form. -/

namespace Sys2Proof.Machine

open Sys2Proof

theorem Memory.read_write_same (m : Memory) (a : Nat) (v : Word) : (m.write a v).read a = some v := by
  induction m with
  | nil => simp [Memory.write, Memory.read]
  | cons c m ih =>
    obtain ⟨b, w⟩ := c
    by_cases h : a < b
    · simp [Memory.write, Memory.read, h]
    · by_cases h2 : a = b <;> simp [Memory.write, Memory.read, h, h2, ih]

theorem Memory.read_write_other (m : Memory) (a b : Nat) (v : Word) (h : b ≠ a) :
    (m.write a v).read b = m.read b := by
  induction m with
  | nil => simp [Memory.write, Memory.read, h]
  | cons c m ih =>
    obtain ⟨d, w⟩ := c
    by_cases h1 : a < d
    · simp [Memory.write, Memory.read, h1, h]
    · by_cases h2 : a = d
      · subst h2; simp [Memory.write, Memory.read, h]
      · simp [Memory.write, Memory.read, h1, h2, ih]

theorem Memory.write_wf (m : Memory) (a : Nat) (v : Word) (h : m.wf = true) : (m.write a v).wf = true := by
  induction m with
  | nil => rfl
  | cons c m ih =>
    obtain ⟨b, w⟩ := c
    by_cases h1 : a < b
    · simp [Memory.write, h1, Memory.wf, h]
    · by_cases h2 : a = b
      · subst h2
        cases m with
        | nil => simp [Memory.write, Memory.wf]
        | cons d m => simpa [Memory.write, Memory.wf] using h
      · cases m with
        | nil => simp [Memory.write, Memory.wf, h1, h2]; omega
        | cons d m =>
          obtain ⟨d, x⟩ := d
          simp only [Memory.wf, Bool.and_eq_true, decide_eq_true_eq] at h
          have ih := ih h.2
          simp only [Memory.write, h1, h2, if_false] at ih ⊢
          by_cases h3 : a < d
          · simp only [h3, if_true, Memory.wf, Bool.and_eq_true, decide_eq_true_eq] at ih ⊢
            exact ⟨by omega, ih⟩
          · by_cases h4 : a = d
            · subst h4
              simp only [lt_irrefl, if_false, if_true] at ih ⊢
              simp only [Memory.wf, Bool.and_eq_true, decide_eq_true_eq]
              exact ⟨h.1, ih⟩
            · simp only [h3, h4, if_false] at ih ⊢
              simp only [Memory.wf, Bool.and_eq_true, decide_eq_true_eq]
              exact ⟨h.1, ih⟩

theorem Memory.write_below (m : Memory) (a n : Nat) (v : Word) (h : m.below n = true) (ha : a < n) :
    (m.write a v).below n = true := by
  induction m with
  | nil => simpa [Memory.write, Memory.below] using ha
  | cons c m ih =>
    obtain ⟨b, w⟩ := c
    simp only [Memory.below, List.all_cons, Bool.and_eq_true, decide_eq_true_eq] at h ih
    by_cases h1 : a < b
    · simp only [Memory.write, h1, if_true, Memory.below, List.all_cons, Bool.and_eq_true, decide_eq_true_eq]
      exact ⟨ha, h⟩
    · by_cases h2 : a = b
      · subst h2
        simpa [Memory.write, Memory.below] using h
      · simp only [Memory.write, h1, h2, if_false, Memory.below, List.all_cons, Bool.and_eq_true, decide_eq_true_eq]
        exact ⟨h.1, ih h.2⟩

/-- The memories of the machine after reset have the canonical form. -/
theorem reset_memories_wf : State.reset.dmem.wf = true ∧ State.reset.imem.wf = true := ⟨rfl, rfl⟩

end Sys2Proof.Machine
end

