-- ==== Sys2Proof/Laws/State.lean ====
section
/-! SUPPORT. One lemma per field per update of `State`, so that no proof unfolds a record update. -/

namespace Sys2Proof.Machine

open Sys2Proof Sys2Proof.Config

@[simp] theorem State.setStored_regs (s : State) (i : Fin 57) (v : Word) : (s.setStored i v).regs = s.regs.set i v := rfl
@[simp] theorem State.setStored_op (s : State) (i : Fin 57) (v : Word) : (s.setStored i v).op = s.op := rfl
@[simp] theorem State.setStored_rc (s : State) (i : Fin 57) (v : Word) : (s.setStored i v).rc = s.rc := rfl
@[simp] theorem State.setStored_tmr1 (s : State) (i : Fin 57) (v : Word) : (s.setStored i v).tmr1 = s.tmr1 := rfl
@[simp] theorem State.setStored_tmr2 (s : State) (i : Fin 57) (v : Word) : (s.setStored i v).tmr2 = s.tmr2 := rfl
@[simp] theorem State.setStored_ipc (s : State) (i : Fin 57) (v : Word) : (s.setStored i v).ipc = s.ipc := rfl
@[simp] theorem State.setStored_pc (s : State) (i : Fin 57) (v : Word) : (s.setStored i v).pc = s.pc := rfl
@[simp] theorem State.setStored_pending (s : State) (i : Fin 57) (v : Word) : (s.setStored i v).pending = s.pending := rfl
@[simp] theorem State.setStored_ins (s : State) (i : Fin 57) (v : Word) : (s.setStored i v).ins = s.ins := rfl
@[simp] theorem State.setStored_dmem (s : State) (i : Fin 57) (v : Word) : (s.setStored i v).dmem = s.dmem := rfl
@[simp] theorem State.setStored_imem (s : State) (i : Fin 57) (v : Word) : (s.setStored i v).imem = s.imem := rfl
@[simp] theorem State.setStored_outputs (s : State) (i : Fin 57) (v : Word) : (s.setStored i v).outputs = s.outputs := rfl
@[simp] theorem State.setStored_portIn (s : State) (i : Fin 57) (v : Word) : (s.setStored i v).portIn = s.portIn := rfl
@[simp] theorem State.setStored_portDraws (s : State) (i : Fin 57) (v : Word) : (s.setStored i v).portDraws = s.portDraws := rfl
@[simp] theorem State.setStored_schedule (s : State) (i : Fin 57) (v : Word) : (s.setStored i v).schedule = s.schedule := rfl
@[simp] theorem State.setStored_turnDraws (s : State) (i : Fin 57) (v : Word) : (s.setStored i v).turnDraws = s.turnDraws := rfl
@[simp] theorem State.setStored_params (s : State) (i : Fin 57) (v : Word) : (s.setStored i v).params = s.params := rfl

@[simp] theorem State.emitOp_regs (s : State) (v : Word) : (s.emitOp v).regs = s.regs := rfl
@[simp] theorem State.emitOp_op (s : State) (v : Word) : (s.emitOp v).op = v := rfl
@[simp] theorem State.emitOp_rc (s : State) (v : Word) : (s.emitOp v).rc = s.rc := rfl
@[simp] theorem State.emitOp_tmr1 (s : State) (v : Word) : (s.emitOp v).tmr1 = s.tmr1 := rfl
@[simp] theorem State.emitOp_tmr2 (s : State) (v : Word) : (s.emitOp v).tmr2 = s.tmr2 := rfl
@[simp] theorem State.emitOp_ipc (s : State) (v : Word) : (s.emitOp v).ipc = s.ipc := rfl
@[simp] theorem State.emitOp_pc (s : State) (v : Word) : (s.emitOp v).pc = s.pc := rfl
@[simp] theorem State.emitOp_pending (s : State) (v : Word) : (s.emitOp v).pending = s.pending := rfl
@[simp] theorem State.emitOp_ins (s : State) (v : Word) : (s.emitOp v).ins = s.ins := rfl
@[simp] theorem State.emitOp_dmem (s : State) (v : Word) : (s.emitOp v).dmem = s.dmem := rfl
@[simp] theorem State.emitOp_imem (s : State) (v : Word) : (s.emitOp v).imem = s.imem := rfl
@[simp] theorem State.emitOp_outputs (s : State) (v : Word) : (s.emitOp v).outputs = s.outputs ++ [v] := rfl
@[simp] theorem State.emitOp_portIn (s : State) (v : Word) : (s.emitOp v).portIn = s.portIn := rfl
@[simp] theorem State.emitOp_portDraws (s : State) (v : Word) : (s.emitOp v).portDraws = s.portDraws := rfl
@[simp] theorem State.emitOp_schedule (s : State) (v : Word) : (s.emitOp v).schedule = s.schedule := rfl
@[simp] theorem State.emitOp_turnDraws (s : State) (v : Word) : (s.emitOp v).turnDraws = s.turnDraws := rfl
@[simp] theorem State.emitOp_params (s : State) (v : Word) : (s.emitOp v).params = s.params := rfl

@[simp] theorem State.setRc_regs (s : State) (v : Word) : (s.setRc v).regs = s.regs := rfl
@[simp] theorem State.setRc_op (s : State) (v : Word) : (s.setRc v).op = s.op := rfl
@[simp] theorem State.setRc_rc (s : State) (v : Word) : (s.setRc v).rc = v := rfl
@[simp] theorem State.setRc_tmr1 (s : State) (v : Word) : (s.setRc v).tmr1 = s.tmr1 := rfl
@[simp] theorem State.setRc_tmr2 (s : State) (v : Word) : (s.setRc v).tmr2 = s.tmr2 := rfl
@[simp] theorem State.setRc_ipc (s : State) (v : Word) : (s.setRc v).ipc = s.ipc := rfl
@[simp] theorem State.setRc_pc (s : State) (v : Word) : (s.setRc v).pc = s.pc := rfl
@[simp] theorem State.setRc_pending (s : State) (v : Word) : (s.setRc v).pending = s.pending := rfl
@[simp] theorem State.setRc_ins (s : State) (v : Word) : (s.setRc v).ins = s.ins := rfl
@[simp] theorem State.setRc_dmem (s : State) (v : Word) : (s.setRc v).dmem = s.dmem := rfl
@[simp] theorem State.setRc_imem (s : State) (v : Word) : (s.setRc v).imem = s.imem := rfl
@[simp] theorem State.setRc_outputs (s : State) (v : Word) : (s.setRc v).outputs = s.outputs := rfl
@[simp] theorem State.setRc_portIn (s : State) (v : Word) : (s.setRc v).portIn = s.portIn := rfl
@[simp] theorem State.setRc_portDraws (s : State) (v : Word) : (s.setRc v).portDraws = s.portDraws := rfl
@[simp] theorem State.setRc_schedule (s : State) (v : Word) : (s.setRc v).schedule = s.schedule := rfl
@[simp] theorem State.setRc_turnDraws (s : State) (v : Word) : (s.setRc v).turnDraws = s.turnDraws := rfl
@[simp] theorem State.setRc_params (s : State) (v : Word) : (s.setRc v).params = s.params := rfl

@[simp] theorem State.setTimers_regs (s : State) (v w : Word) : (s.setTimers v w).regs = s.regs := rfl
@[simp] theorem State.setTimers_op (s : State) (v w : Word) : (s.setTimers v w).op = s.op := rfl
@[simp] theorem State.setTimers_rc (s : State) (v w : Word) : (s.setTimers v w).rc = s.rc := rfl
@[simp] theorem State.setTimers_tmr1 (s : State) (v w : Word) : (s.setTimers v w).tmr1 = v := rfl
@[simp] theorem State.setTimers_tmr2 (s : State) (v w : Word) : (s.setTimers v w).tmr2 = w := rfl
@[simp] theorem State.setTimers_ipc (s : State) (v w : Word) : (s.setTimers v w).ipc = s.ipc := rfl
@[simp] theorem State.setTimers_pc (s : State) (v w : Word) : (s.setTimers v w).pc = s.pc := rfl
@[simp] theorem State.setTimers_pending (s : State) (v w : Word) : (s.setTimers v w).pending = s.pending := rfl
@[simp] theorem State.setTimers_ins (s : State) (v w : Word) : (s.setTimers v w).ins = s.ins := rfl
@[simp] theorem State.setTimers_dmem (s : State) (v w : Word) : (s.setTimers v w).dmem = s.dmem := rfl
@[simp] theorem State.setTimers_imem (s : State) (v w : Word) : (s.setTimers v w).imem = s.imem := rfl
@[simp] theorem State.setTimers_outputs (s : State) (v w : Word) : (s.setTimers v w).outputs = s.outputs := rfl
@[simp] theorem State.setTimers_portIn (s : State) (v w : Word) : (s.setTimers v w).portIn = s.portIn := rfl
@[simp] theorem State.setTimers_portDraws (s : State) (v w : Word) : (s.setTimers v w).portDraws = s.portDraws := rfl
@[simp] theorem State.setTimers_schedule (s : State) (v w : Word) : (s.setTimers v w).schedule = s.schedule := rfl
@[simp] theorem State.setTimers_turnDraws (s : State) (v w : Word) : (s.setTimers v w).turnDraws = s.turnDraws := rfl
@[simp] theorem State.setTimers_params (s : State) (v w : Word) : (s.setTimers v w).params = s.params := rfl

@[simp] theorem State.setPending_regs (s : State) (p : Pending) : (s.setPending p).regs = s.regs := rfl
@[simp] theorem State.setPending_op (s : State) (p : Pending) : (s.setPending p).op = s.op := rfl
@[simp] theorem State.setPending_rc (s : State) (p : Pending) : (s.setPending p).rc = s.rc := rfl
@[simp] theorem State.setPending_tmr1 (s : State) (p : Pending) : (s.setPending p).tmr1 = s.tmr1 := rfl
@[simp] theorem State.setPending_tmr2 (s : State) (p : Pending) : (s.setPending p).tmr2 = s.tmr2 := rfl
@[simp] theorem State.setPending_ipc (s : State) (p : Pending) : (s.setPending p).ipc = s.ipc := rfl
@[simp] theorem State.setPending_pc (s : State) (p : Pending) : (s.setPending p).pc = s.pc := rfl
@[simp] theorem State.setPending_pending (s : State) (p : Pending) : (s.setPending p).pending = p := rfl
@[simp] theorem State.setPending_ins (s : State) (p : Pending) : (s.setPending p).ins = s.ins := rfl
@[simp] theorem State.setPending_dmem (s : State) (p : Pending) : (s.setPending p).dmem = s.dmem := rfl
@[simp] theorem State.setPending_imem (s : State) (p : Pending) : (s.setPending p).imem = s.imem := rfl
@[simp] theorem State.setPending_outputs (s : State) (p : Pending) : (s.setPending p).outputs = s.outputs := rfl
@[simp] theorem State.setPending_portIn (s : State) (p : Pending) : (s.setPending p).portIn = s.portIn := rfl
@[simp] theorem State.setPending_portDraws (s : State) (p : Pending) : (s.setPending p).portDraws = s.portDraws := rfl
@[simp] theorem State.setPending_schedule (s : State) (p : Pending) : (s.setPending p).schedule = s.schedule := rfl
@[simp] theorem State.setPending_turnDraws (s : State) (p : Pending) : (s.setPending p).turnDraws = s.turnDraws := rfl
@[simp] theorem State.setPending_params (s : State) (p : Pending) : (s.setPending p).params = s.params := rfl

@[simp] theorem State.setIns_regs (s : State) (b : Bool) : (s.setIns b).regs = s.regs := rfl
@[simp] theorem State.setIns_op (s : State) (b : Bool) : (s.setIns b).op = s.op := rfl
@[simp] theorem State.setIns_rc (s : State) (b : Bool) : (s.setIns b).rc = s.rc := rfl
@[simp] theorem State.setIns_tmr1 (s : State) (b : Bool) : (s.setIns b).tmr1 = s.tmr1 := rfl
@[simp] theorem State.setIns_tmr2 (s : State) (b : Bool) : (s.setIns b).tmr2 = s.tmr2 := rfl
@[simp] theorem State.setIns_ipc (s : State) (b : Bool) : (s.setIns b).ipc = s.ipc := rfl
@[simp] theorem State.setIns_pc (s : State) (b : Bool) : (s.setIns b).pc = s.pc := rfl
@[simp] theorem State.setIns_pending (s : State) (b : Bool) : (s.setIns b).pending = s.pending := rfl
@[simp] theorem State.setIns_ins (s : State) (b : Bool) : (s.setIns b).ins = b := rfl
@[simp] theorem State.setIns_dmem (s : State) (b : Bool) : (s.setIns b).dmem = s.dmem := rfl
@[simp] theorem State.setIns_imem (s : State) (b : Bool) : (s.setIns b).imem = s.imem := rfl
@[simp] theorem State.setIns_outputs (s : State) (b : Bool) : (s.setIns b).outputs = s.outputs := rfl
@[simp] theorem State.setIns_portIn (s : State) (b : Bool) : (s.setIns b).portIn = s.portIn := rfl
@[simp] theorem State.setIns_portDraws (s : State) (b : Bool) : (s.setIns b).portDraws = s.portDraws := rfl
@[simp] theorem State.setIns_schedule (s : State) (b : Bool) : (s.setIns b).schedule = s.schedule := rfl
@[simp] theorem State.setIns_turnDraws (s : State) (b : Bool) : (s.setIns b).turnDraws = s.turnDraws := rfl
@[simp] theorem State.setIns_params (s : State) (b : Bool) : (s.setIns b).params = s.params := rfl

@[simp] theorem State.setPc_regs (s : State) (a : Addr) : (s.setPc a).regs = s.regs := rfl
@[simp] theorem State.setPc_op (s : State) (a : Addr) : (s.setPc a).op = s.op := rfl
@[simp] theorem State.setPc_rc (s : State) (a : Addr) : (s.setPc a).rc = s.rc := rfl
@[simp] theorem State.setPc_tmr1 (s : State) (a : Addr) : (s.setPc a).tmr1 = s.tmr1 := rfl
@[simp] theorem State.setPc_tmr2 (s : State) (a : Addr) : (s.setPc a).tmr2 = s.tmr2 := rfl
@[simp] theorem State.setPc_ipc (s : State) (a : Addr) : (s.setPc a).ipc = s.ipc := rfl
@[simp] theorem State.setPc_pc (s : State) (a : Addr) : (s.setPc a).pc = a := rfl
@[simp] theorem State.setPc_pending (s : State) (a : Addr) : (s.setPc a).pending = s.pending := rfl
@[simp] theorem State.setPc_ins (s : State) (a : Addr) : (s.setPc a).ins = s.ins := rfl
@[simp] theorem State.setPc_dmem (s : State) (a : Addr) : (s.setPc a).dmem = s.dmem := rfl
@[simp] theorem State.setPc_imem (s : State) (a : Addr) : (s.setPc a).imem = s.imem := rfl
@[simp] theorem State.setPc_outputs (s : State) (a : Addr) : (s.setPc a).outputs = s.outputs := rfl
@[simp] theorem State.setPc_portIn (s : State) (a : Addr) : (s.setPc a).portIn = s.portIn := rfl
@[simp] theorem State.setPc_portDraws (s : State) (a : Addr) : (s.setPc a).portDraws = s.portDraws := rfl
@[simp] theorem State.setPc_schedule (s : State) (a : Addr) : (s.setPc a).schedule = s.schedule := rfl
@[simp] theorem State.setPc_turnDraws (s : State) (a : Addr) : (s.setPc a).turnDraws = s.turnDraws := rfl
@[simp] theorem State.setPc_params (s : State) (a : Addr) : (s.setPc a).params = s.params := rfl

@[simp] theorem State.setIpc_regs (s : State) (a : Addr) : (s.setIpc a).regs = s.regs := rfl
@[simp] theorem State.setIpc_op (s : State) (a : Addr) : (s.setIpc a).op = s.op := rfl
@[simp] theorem State.setIpc_rc (s : State) (a : Addr) : (s.setIpc a).rc = s.rc := rfl
@[simp] theorem State.setIpc_tmr1 (s : State) (a : Addr) : (s.setIpc a).tmr1 = s.tmr1 := rfl
@[simp] theorem State.setIpc_tmr2 (s : State) (a : Addr) : (s.setIpc a).tmr2 = s.tmr2 := rfl
@[simp] theorem State.setIpc_ipc (s : State) (a : Addr) : (s.setIpc a).ipc = a := rfl
@[simp] theorem State.setIpc_pc (s : State) (a : Addr) : (s.setIpc a).pc = s.pc := rfl
@[simp] theorem State.setIpc_pending (s : State) (a : Addr) : (s.setIpc a).pending = s.pending := rfl
@[simp] theorem State.setIpc_ins (s : State) (a : Addr) : (s.setIpc a).ins = s.ins := rfl
@[simp] theorem State.setIpc_dmem (s : State) (a : Addr) : (s.setIpc a).dmem = s.dmem := rfl
@[simp] theorem State.setIpc_imem (s : State) (a : Addr) : (s.setIpc a).imem = s.imem := rfl
@[simp] theorem State.setIpc_outputs (s : State) (a : Addr) : (s.setIpc a).outputs = s.outputs := rfl
@[simp] theorem State.setIpc_portIn (s : State) (a : Addr) : (s.setIpc a).portIn = s.portIn := rfl
@[simp] theorem State.setIpc_portDraws (s : State) (a : Addr) : (s.setIpc a).portDraws = s.portDraws := rfl
@[simp] theorem State.setIpc_schedule (s : State) (a : Addr) : (s.setIpc a).schedule = s.schedule := rfl
@[simp] theorem State.setIpc_turnDraws (s : State) (a : Addr) : (s.setIpc a).turnDraws = s.turnDraws := rfl
@[simp] theorem State.setIpc_params (s : State) (a : Addr) : (s.setIpc a).params = s.params := rfl

@[simp] theorem State.setDmem_regs (s : State) (m : Memory) : (s.setDmem m).regs = s.regs := rfl
@[simp] theorem State.setDmem_op (s : State) (m : Memory) : (s.setDmem m).op = s.op := rfl
@[simp] theorem State.setDmem_rc (s : State) (m : Memory) : (s.setDmem m).rc = s.rc := rfl
@[simp] theorem State.setDmem_tmr1 (s : State) (m : Memory) : (s.setDmem m).tmr1 = s.tmr1 := rfl
@[simp] theorem State.setDmem_tmr2 (s : State) (m : Memory) : (s.setDmem m).tmr2 = s.tmr2 := rfl
@[simp] theorem State.setDmem_ipc (s : State) (m : Memory) : (s.setDmem m).ipc = s.ipc := rfl
@[simp] theorem State.setDmem_pc (s : State) (m : Memory) : (s.setDmem m).pc = s.pc := rfl
@[simp] theorem State.setDmem_pending (s : State) (m : Memory) : (s.setDmem m).pending = s.pending := rfl
@[simp] theorem State.setDmem_ins (s : State) (m : Memory) : (s.setDmem m).ins = s.ins := rfl
@[simp] theorem State.setDmem_dmem (s : State) (m : Memory) : (s.setDmem m).dmem = m := rfl
@[simp] theorem State.setDmem_imem (s : State) (m : Memory) : (s.setDmem m).imem = s.imem := rfl
@[simp] theorem State.setDmem_outputs (s : State) (m : Memory) : (s.setDmem m).outputs = s.outputs := rfl
@[simp] theorem State.setDmem_portIn (s : State) (m : Memory) : (s.setDmem m).portIn = s.portIn := rfl
@[simp] theorem State.setDmem_portDraws (s : State) (m : Memory) : (s.setDmem m).portDraws = s.portDraws := rfl
@[simp] theorem State.setDmem_schedule (s : State) (m : Memory) : (s.setDmem m).schedule = s.schedule := rfl
@[simp] theorem State.setDmem_turnDraws (s : State) (m : Memory) : (s.setDmem m).turnDraws = s.turnDraws := rfl
@[simp] theorem State.setDmem_params (s : State) (m : Memory) : (s.setDmem m).params = s.params := rfl

@[simp] theorem State.setImem_regs (s : State) (m : Memory) : (s.setImem m).regs = s.regs := rfl
@[simp] theorem State.setImem_op (s : State) (m : Memory) : (s.setImem m).op = s.op := rfl
@[simp] theorem State.setImem_rc (s : State) (m : Memory) : (s.setImem m).rc = s.rc := rfl
@[simp] theorem State.setImem_tmr1 (s : State) (m : Memory) : (s.setImem m).tmr1 = s.tmr1 := rfl
@[simp] theorem State.setImem_tmr2 (s : State) (m : Memory) : (s.setImem m).tmr2 = s.tmr2 := rfl
@[simp] theorem State.setImem_ipc (s : State) (m : Memory) : (s.setImem m).ipc = s.ipc := rfl
@[simp] theorem State.setImem_pc (s : State) (m : Memory) : (s.setImem m).pc = s.pc := rfl
@[simp] theorem State.setImem_pending (s : State) (m : Memory) : (s.setImem m).pending = s.pending := rfl
@[simp] theorem State.setImem_ins (s : State) (m : Memory) : (s.setImem m).ins = s.ins := rfl
@[simp] theorem State.setImem_dmem (s : State) (m : Memory) : (s.setImem m).dmem = s.dmem := rfl
@[simp] theorem State.setImem_imem (s : State) (m : Memory) : (s.setImem m).imem = m := rfl
@[simp] theorem State.setImem_outputs (s : State) (m : Memory) : (s.setImem m).outputs = s.outputs := rfl
@[simp] theorem State.setImem_portIn (s : State) (m : Memory) : (s.setImem m).portIn = s.portIn := rfl
@[simp] theorem State.setImem_portDraws (s : State) (m : Memory) : (s.setImem m).portDraws = s.portDraws := rfl
@[simp] theorem State.setImem_schedule (s : State) (m : Memory) : (s.setImem m).schedule = s.schedule := rfl
@[simp] theorem State.setImem_turnDraws (s : State) (m : Memory) : (s.setImem m).turnDraws = s.turnDraws := rfl
@[simp] theorem State.setImem_params (s : State) (m : Memory) : (s.setImem m).params = s.params := rfl

@[simp] theorem State.setSchedule_regs (s : State) (l : List Turn) : (s.setSchedule l).regs = s.regs := rfl
@[simp] theorem State.setSchedule_op (s : State) (l : List Turn) : (s.setSchedule l).op = s.op := rfl
@[simp] theorem State.setSchedule_rc (s : State) (l : List Turn) : (s.setSchedule l).rc = s.rc := rfl
@[simp] theorem State.setSchedule_tmr1 (s : State) (l : List Turn) : (s.setSchedule l).tmr1 = s.tmr1 := rfl
@[simp] theorem State.setSchedule_tmr2 (s : State) (l : List Turn) : (s.setSchedule l).tmr2 = s.tmr2 := rfl
@[simp] theorem State.setSchedule_ipc (s : State) (l : List Turn) : (s.setSchedule l).ipc = s.ipc := rfl
@[simp] theorem State.setSchedule_pc (s : State) (l : List Turn) : (s.setSchedule l).pc = s.pc := rfl
@[simp] theorem State.setSchedule_pending (s : State) (l : List Turn) : (s.setSchedule l).pending = s.pending := rfl
@[simp] theorem State.setSchedule_ins (s : State) (l : List Turn) : (s.setSchedule l).ins = s.ins := rfl
@[simp] theorem State.setSchedule_dmem (s : State) (l : List Turn) : (s.setSchedule l).dmem = s.dmem := rfl
@[simp] theorem State.setSchedule_imem (s : State) (l : List Turn) : (s.setSchedule l).imem = s.imem := rfl
@[simp] theorem State.setSchedule_outputs (s : State) (l : List Turn) : (s.setSchedule l).outputs = s.outputs := rfl
@[simp] theorem State.setSchedule_portIn (s : State) (l : List Turn) : (s.setSchedule l).portIn = s.portIn := rfl
@[simp] theorem State.setSchedule_portDraws (s : State) (l : List Turn) : (s.setSchedule l).portDraws = s.portDraws := rfl
@[simp] theorem State.setSchedule_schedule (s : State) (l : List Turn) : (s.setSchedule l).schedule = l := rfl
@[simp] theorem State.setSchedule_turnDraws (s : State) (l : List Turn) : (s.setSchedule l).turnDraws = s.turnDraws := rfl
@[simp] theorem State.setSchedule_params (s : State) (l : List Turn) : (s.setSchedule l).params = s.params := rfl

@[simp] theorem State.takeTurn_regs (s : State) : s.takeTurn.regs = s.regs := rfl
@[simp] theorem State.takeTurn_op (s : State) : s.takeTurn.op = s.op := rfl
@[simp] theorem State.takeTurn_rc (s : State) : s.takeTurn.rc = s.rc := rfl
@[simp] theorem State.takeTurn_tmr1 (s : State) : s.takeTurn.tmr1 = s.tmr1 := rfl
@[simp] theorem State.takeTurn_tmr2 (s : State) : s.takeTurn.tmr2 = s.tmr2 := rfl
@[simp] theorem State.takeTurn_ipc (s : State) : s.takeTurn.ipc = s.ipc := rfl
@[simp] theorem State.takeTurn_pc (s : State) : s.takeTurn.pc = s.pc := rfl
@[simp] theorem State.takeTurn_pending (s : State) : s.takeTurn.pending = s.pending := rfl
@[simp] theorem State.takeTurn_ins (s : State) : s.takeTurn.ins = s.ins := rfl
@[simp] theorem State.takeTurn_dmem (s : State) : s.takeTurn.dmem = s.dmem := rfl
@[simp] theorem State.takeTurn_imem (s : State) : s.takeTurn.imem = s.imem := rfl
@[simp] theorem State.takeTurn_outputs (s : State) : s.takeTurn.outputs = s.outputs := rfl
@[simp] theorem State.takeTurn_portIn (s : State) : s.takeTurn.portIn = s.portIn := rfl
@[simp] theorem State.takeTurn_portDraws (s : State) : s.takeTurn.portDraws = s.portDraws := rfl
@[simp] theorem State.takeTurn_schedule (s : State) : s.takeTurn.schedule = s.schedule.tail := rfl
@[simp] theorem State.takeTurn_turnDraws (s : State) : s.takeTurn.turnDraws = s.turnDraws + 1 := rfl
@[simp] theorem State.takeTurn_params (s : State) : s.takeTurn.params = s.params := rfl

@[simp] theorem State.nextSample_regs (s : State) : s.nextSample.regs = s.regs := rfl
@[simp] theorem State.nextSample_op (s : State) : s.nextSample.op = s.op := rfl
@[simp] theorem State.nextSample_rc (s : State) : s.nextSample.rc = s.rc := rfl
@[simp] theorem State.nextSample_tmr1 (s : State) : s.nextSample.tmr1 = s.tmr1 := rfl
@[simp] theorem State.nextSample_tmr2 (s : State) : s.nextSample.tmr2 = s.tmr2 := rfl
@[simp] theorem State.nextSample_ipc (s : State) : s.nextSample.ipc = s.ipc := rfl
@[simp] theorem State.nextSample_pc (s : State) : s.nextSample.pc = s.pc := rfl
@[simp] theorem State.nextSample_pending (s : State) : s.nextSample.pending = s.pending := rfl
@[simp] theorem State.nextSample_ins (s : State) : s.nextSample.ins = s.ins := rfl
@[simp] theorem State.nextSample_dmem (s : State) : s.nextSample.dmem = s.dmem := rfl
@[simp] theorem State.nextSample_imem (s : State) : s.nextSample.imem = s.imem := rfl
@[simp] theorem State.nextSample_outputs (s : State) : s.nextSample.outputs = s.outputs := rfl
@[simp] theorem State.nextSample_portIn (s : State) : s.nextSample.portIn = s.portIn.tail := rfl
@[simp] theorem State.nextSample_portDraws (s : State) : s.nextSample.portDraws = s.portDraws + 1 := rfl
@[simp] theorem State.nextSample_schedule (s : State) : s.nextSample.schedule = s.schedule := rfl
@[simp] theorem State.nextSample_turnDraws (s : State) : s.nextSample.turnDraws = s.turnDraws := rfl
@[simp] theorem State.nextSample_params (s : State) : s.nextSample.params = s.params := rfl

end Sys2Proof.Machine
end

