-- ==== Sys2Proof/Laws/Ops.lean ====
section
/-! SUPPORT. What each shared operation can do, said once: register read and write, the end of an instruction, data
memory, fetch, the multiplier and the divider, the selection of an interrupt, the entry, the environment's events, an
instruction and a step. -/

namespace Sys2Proof.Machine

open Sys2Proof Sys2Proof.Config

/-! ## Registers -/

theorem classify_stored_iff (r : RegNum) (i : Fin 57) : classify r = .stored i ↔ r.toNat = i.val + 1 := by
  have hi := i.isLt
  unfold classify
  constructor
  · intro h
    split_ifs at h with h0 h1
    rw [RegClass.stored.injEq] at h
    have hv := congrArg Fin.val h
    have : r.toNat ≠ 0 := fun e => h0 (by bv_omega)
    simp at hv
    omega
  · intro h
    have h0 : ¬r = 0 := fun e => by simp [e] at h
    have h1 : r.toNat - 1 < 57 := by omega
    rw [if_neg h0, dif_pos h1, RegClass.stored.injEq]
    exact Fin.ext (by simp; omega)

theorem classify_special (r : RegNum) :
    (classify r = .zero ↔ r = 0) ∧ (classify r = .op ↔ r = 58) ∧ (classify r = .rc ↔ r = 59) ∧
    (classify r = .tmr1 ↔ r = 60) ∧ (classify r = .tmr2 ↔ r = 61) ∧ (classify r = .ip ↔ r = 62) ∧
    (classify r = .ipc ↔ r = 63) := by
  unfold classify
  have hr := r.isLt
  by_cases h0 : r = 0
  · subst h0; decide
  have hn : r.toNat ≠ 0 := fun e => h0 (by bv_omega)
  by_cases h1 : r.toNat - 1 < 57
  · rw [if_neg h0, dif_pos h1]
    have key : ∀ k : RegNum, 58 ≤ k.toNat → r ≠ k := fun k hk e => by subst e; omega
    exact ⟨⟨nofun, fun e => absurd e h0⟩, ⟨nofun, fun e => absurd e (key 58 (by decide))⟩,
      ⟨nofun, fun e => absurd e (key 59 (by decide))⟩, ⟨nofun, fun e => absurd e (key 60 (by decide))⟩,
      ⟨nofun, fun e => absurd e (key 61 (by decide))⟩, ⟨nofun, fun e => absurd e (key 62 (by decide))⟩,
      ⟨nofun, fun e => absurd e (key 63 (by decide))⟩⟩
  · rw [if_neg h0, dif_neg h1]
    have : r = 58 ∨ r = 59 ∨ r = 60 ∨ r = 61 ∨ r = 62 ∨ r = 63 := by bv_omega
    obtain h | h | h | h | h | h := this <;> subst h <;> decide

/-- Two register numbers never name one register. -/
theorem classify_inj {r q : RegNum} (h : classify r = classify q) : r = q := by
  have hr := classify_special r
  have hq := classify_special q
  cases hc : classify r with
  | stored i =>
    have h1 := (classify_stored_iff r i).1 hc
    have h2 := (classify_stored_iff q i).1 (h ▸ hc)
    exact BitVec.eq_of_toNat_eq (by omega)
  | zero => rw [hr.1.1 hc, hq.1.1 (h ▸ hc)]
  | op => rw [hr.2.1.1 hc, hq.2.1.1 (h ▸ hc)]
  | rc => rw [hr.2.2.1.1 hc, hq.2.2.1.1 (h ▸ hc)]
  | tmr1 => rw [hr.2.2.2.1.1 hc, hq.2.2.2.1.1 (h ▸ hc)]
  | tmr2 => rw [hr.2.2.2.2.1.1 hc, hq.2.2.2.2.1.1 (h ▸ hc)]
  | ip => rw [hr.2.2.2.2.2.1.1 hc, hq.2.2.2.2.2.1.1 (h ▸ hc)]
  | ipc => rw [hr.2.2.2.2.2.2.1 hc, hq.2.2.2.2.2.2.1 (h ▸ hc)]

/-- The kind of register a writable number names. -/
theorem classify_of_writable (r : RegNum) (h : Writable r) :
    (∃ i, classify r = .stored i) ∨ r = 58 ∨ r = 59 := by
  obtain ⟨h1, h2⟩ := h
  by_cases h3 : r.toNat ≤ 57
  · exact .inl ⟨⟨r.toNat - 1, by omega⟩, (classify_stored_iff r _).2 (by simp; omega)⟩
  · have : r.toNat = 58 ∨ r.toNat = 59 := by omega
    exact .inr (this.imp (fun e => BitVec.eq_of_toNat_eq e) (fun e => BitVec.eq_of_toNat_eq e))

/-- Reading a register looks at nothing but these fields. -/
theorem readReg_congr {s t : State} (r : RegNum) (hregs : t.regs = s.regs) (hop : t.op = s.op) (hrc : t.rc = s.rc)
    (h1 : t.tmr1 = s.tmr1) (h2 : t.tmr2 = s.tmr2) (hipc : t.ipc = s.ipc)
    (hip : r ≠ 62 ∨ t.portSample = s.portSample) : t.readReg r = s.readReg r := by
  unfold State.readReg
  cases hc : classify r <;> simp only [hregs, hop, hrc, h1, h2, hipc]
  rcases hip with h | h
  · exact absurd ((classify_special r).2.2.2.2.2.1.1 hc) h
  · exact h

/-- A write raises Retfi exactly when bits 3:0 of the value are not all 0 (rule R210). -/
theorem raisesRetfi_eq_false_iff (v : Word) : raisesRetfi v = false ↔ v.extractLsb' 0 4 = 0 := by
  have hbits : raisesRetfi v = false ↔ ∀ k, k < 4 → v.getLsbD k = false := by
    simp only [raisesRetfi, flagResetBit, Bool.or_eq_false_iff]
    constructor
    · rintro ⟨⟨⟨h0, h1⟩, h2⟩, h3⟩ k hk
      have : k = 0 ∨ k = 1 ∨ k = 2 ∨ k = 3 := by omega
      obtain rfl | rfl | rfl | rfl := this <;> assumption
    · exact fun h => ⟨⟨⟨h 0 (by omega), h 1 (by omega)⟩, h 2 (by omega)⟩, h 3 (by omega)⟩
  rw [hbits]
  constructor
  · intro h
    apply BitVec.eq_of_getLsbD_eq
    intro k hk
    rw [BitVec.getLsbD_extractLsb', Nat.zero_add, h k hk]
    simp
  · intro h k hk
    have := congrArg (fun x : BitVec 4 => x.getLsbD k) h
    simpa only [BitVec.getLsbD_extractLsb', Nat.zero_add, hk, decide_true, Bool.true_and,
      BitVec.ofNat_eq_ofNat, BitVec.getLsbD_zero] using this

theorem writeRc_rcWritten (s : State) (v : Word) : RcWritten v s (s.writeRc v) := by
  have hr := raisesRetfi_eq_false_iff v
  unfold State.writeRc
  by_cases h : raisesRetfi v = true
  · have hne : ¬v.extractLsb' 0 4 = 0#4 := fun e => by rw [hr.2 e] at h; cases h
    constructor <;> simp only [h, if_true, State.retfi] <;>
      simp [hne, Pending.clearedBy, flagResetBit, timerResetBit]
  · have h0 := hr.1 (by simpa using h)
    constructor <;> simp only [h] <;>
      simp [h0, Pending.clearedBy, flagResetBit, timerResetBit]

/-- What a write of `rc` leaves alone. -/
theorem writeRc_frame (s : State) (v : Word) :
    (s.writeRc v).regs = s.regs ∧ (s.writeRc v).op = s.op ∧ (s.writeRc v).rc = v ∧ (s.writeRc v).ipc = s.ipc ∧
    (s.writeRc v).pc = s.pc ∧ (s.writeRc v).dmem = s.dmem ∧ (s.writeRc v).imem = s.imem ∧
    (s.writeRc v).outputs = s.outputs ∧ (s.writeRc v).portIn = s.portIn ∧
    (s.writeRc v).portDraws = s.portDraws ∧ (s.writeRc v).schedule = s.schedule ∧
    (s.writeRc v).turnDraws = s.turnDraws ∧
    (s.writeRc v).params = s.params := by
  by_cases h : raisesRetfi v = true <;> simp [State.writeRc, h, State.retfi]

/-- What a register write leaves alone. -/
theorem writeReg_frame (s : State) (r : RegNum) (v : Word) :
    (s.writeReg r v).ipc = s.ipc ∧ (s.writeReg r v).pc = s.pc ∧ (s.writeReg r v).dmem = s.dmem ∧
    (s.writeReg r v).imem = s.imem ∧ (s.writeReg r v).portIn = s.portIn ∧
    (s.writeReg r v).portDraws = s.portDraws ∧ (s.writeReg r v).schedule = s.schedule ∧
    (s.writeReg r v).turnDraws = s.turnDraws ∧
    (s.writeReg r v).params = s.params := by
  have h := writeRc_frame s v
  unfold State.writeReg
  split <;> simp_all

/-- Rule R25, as what can be read of the state after a register write. -/
theorem writeReg_registerWritten (s : State) (rd : RegNum) (v : Word) :
    RegisterWritten rd v s (s.writeReg rd v) := by
  have hsp := classify_special rd
  have hrw := writeRc_rcWritten s v
  have hrf := writeRc_frame s v
  cases hc : classify rd with
  | stored i =>
    have hn := (classify_stored_iff rd i).1 hc
    have hw : s.writeReg rd v = s.setStored i v := by simp [State.writeReg, hc]
    have h58 : rd ≠ 58 := fun e => by simp [hsp.2.1.2 e] at hc
    have h59 : rd ≠ 59 := fun e => by simp [hsp.2.2.1.2 e] at hc
    rw [hw]
    refine ⟨fun _ => by simp [State.readReg, hc], fun h => absurd ⟨by omega, by omega⟩ h, fun r hr _ _ => ?_,
      by rw [if_neg h58, State.setStored_outputs], fun h => absurd h h59, fun _ => ⟨rfl, rfl, rfl, rfl⟩⟩
    cases hq : classify r with
    | stored k =>
      have : i ≠ k := fun e => hr (classify_inj (by rw [hq, hc, e]))
      have : (i : Nat) ≠ k := fun e => this (Fin.ext e)
      simp only [State.readReg, hq, State.setStored_regs, Fin.getElem_fin]
      exact Vector.getElem_set_ne _ _ this
    | _ => simp [State.readReg, hq, State.portSample]
  | op =>
    have hrd := hsp.2.1.1 hc
    have hw : s.writeReg rd v = s.emitOp v := by simp [State.writeReg, hc]
    rw [hw]
    refine ⟨fun _ => by simp [State.readReg, hc], fun h => absurd (by subst hrd; decide) h, fun r hr _ _ => ?_,
      by simp [hrd], fun h => by subst hrd; exact absurd h (by decide), fun _ => ⟨rfl, rfl, rfl, rfl⟩⟩
    cases hq : classify r with
    | op => exact absurd (classify_inj (by rw [hq, hc])) hr
    | _ => simp [State.readReg, hq, State.portSample]
  | rc =>
    have hrd := hsp.2.2.1.1 hc
    have hw : s.writeReg rd v = s.writeRc v := by simp [State.writeReg, hc]
    rw [hw]
    refine ⟨fun _ => by simp [State.readReg, hc, hrf.2.2.1], fun h => absurd (by subst hrd; decide) h,
      fun r hr _ hx => ?_, by simp [hrd, hrf], fun _ => hrw, fun h => absurd hrd h⟩
    have hx := hx hrd
    have hq := classify_special r
    cases hqc : classify r with
    | rc => exact absurd (classify_inj (by rw [hqc, hc])) hr
    | tmr1 => exact absurd (hq.2.2.2.1.1 hqc) hx.1
    | tmr2 => exact absurd (hq.2.2.2.2.1.1 hqc) hx.2
    | _ => simp [State.readReg, hqc, State.portSample, hrf]
  | _ =>
    have hw : s.writeReg rd v = s := by simp [State.writeReg, hc]
    have hnw : ¬Writable rd := fun h => by
      rcases classify_of_writable rd h with ⟨i, hi⟩ | hi | hi
      · rw [hc] at hi; cases hi
      · rw [hsp.2.1.2 hi] at hc; cases hc
      · rw [hsp.2.2.1.2 hi] at hc; cases hc
    have h58 : rd ≠ 58 := fun e => by simp [hsp.2.1.2 e] at hc
    have h59 : rd ≠ 59 := fun e => by simp [hsp.2.2.1.2 e] at hc
    rw [hw]
    exact ⟨fun h => absurd h hnw, fun _ _ => rfl, fun _ _ _ _ => rfl, by rw [if_neg h58], fun h => absurd h h59,
      fun _ => ⟨rfl, rfl, rfl, rfl⟩⟩

/-! ## The end of an instruction -/

@[simp] theorem completeAt_pc (s : State) (a : Addr) : (s.completeAt a).pc = a := rfl
@[simp] theorem completeAt_dmem (s : State) (a : Addr) : (s.completeAt a).dmem = s.dmem := rfl
@[simp] theorem completeAt_imem (s : State) (a : Addr) : (s.completeAt a).imem = s.imem := rfl
@[simp] theorem completeAt_pending (s : State) (a : Addr) : (s.completeAt a).pending = s.pending := rfl
@[simp] theorem completeAt_ins (s : State) (a : Addr) : (s.completeAt a).ins = s.ins := rfl
@[simp] theorem completeAt_rc (s : State) (a : Addr) : (s.completeAt a).rc = s.rc := rfl
@[simp] theorem completeAt_ipc (s : State) (a : Addr) : (s.completeAt a).ipc = s.ipc := rfl
@[simp] theorem completeAt_params (s : State) (a : Addr) : (s.completeAt a).params = s.params := rfl
@[simp] theorem completeAt_outputs (s : State) (a : Addr) : (s.completeAt a).outputs = s.outputs := rfl
@[simp] theorem completeAt_schedule (s : State) (a : Addr) : (s.completeAt a).schedule = s.schedule := rfl
@[simp] theorem completeAt_turnDraws (s : State) (a : Addr) : (s.completeAt a).turnDraws = s.turnDraws := rfl

/-- Going on to `a` changes no register but the environment's sample. -/
theorem completeAt_readReg (s : State) (a : Addr) (r : RegNum) (h : r ≠ 62) :
    (s.completeAt a).readReg r = s.readReg r :=
  readReg_congr r rfl rfl rfl rfl rfl rfl (.inl h)

theorem completeAt_goesTo (s : State) (a : Addr) : GoesTo a s (s.completeAt a) :=
  ⟨⟨fun r h => completeAt_readReg s a r h, rfl, ⟨rfl, rfl, rfl, rfl⟩⟩, rfl, fun _ => rfl, ⟨rfl, rfl, rfl, rfl, rfl, rfl⟩⟩

/-- The end of an instruction that writes a register and goes on to `a`: everything it does. -/
theorem writeReg_completeAt_writes (s : State) (rd : RegNum) (v : Word) (a : Addr) :
    Writes rd v a s ((s.writeReg rd v).completeAt a) := by
  have hw := writeReg_registerWritten s rd v
  have hf := writeReg_frame s rd v
  refine ⟨⟨fun h => ?_, fun h h62 => ?_, fun r hr h62 hx => ?_, hw.outputs, fun h => ?_, fun h => ?_⟩, rfl,
    fun _ => by simp [hf], ⟨hf.2.2.2.1, hf.2.2.2.2.2.2.2.2, hf.2.2.2.2.2.2.1, hf.2.2.2.2.2.2.2.1,
      by simp [State.completeAt, hf], by simp [State.completeAt, hf]⟩⟩
  · have h62 : rd ≠ 62 := fun e => by subst e; exact absurd h (by decide)
    rw [completeAt_readReg _ _ _ h62]; exact hw.written h
  · rw [completeAt_readReg _ _ _ h62]; exact hw.discarded h h62
  · rw [completeAt_readReg _ _ _ h62]; exact hw.others r hr h62 hx
  · obtain ⟨h1, h2, h3, h4, h5, h6, h7⟩ := hw.rc h
    exact ⟨h1, h2, h3, h4, h5, h6, h7⟩
  · obtain ⟨h1, h2, h3, h4⟩ := hw.devices h
    exact ⟨h1, h2, h3, h4⟩

theorem writeResult_next (rd : RegNum) (v : Word) (s : State) :
    ∃ t, writeResult rd v s = .next t ∧ Writes rd v (s.pc + 1) s t :=
  ⟨_, rfl, writeReg_completeAt_writes s rd v s.nextPc⟩

theorem transferTo_next (a : Addr) (s : State) : ∃ t, transferTo a s = .next t ∧ GoesTo a s t :=
  ⟨_, rfl, completeAt_goesTo s a⟩

/-! ## Addresses and data memory -/

theorem addrOf_eq_some {v : Word} {a : Addr} : addrOf v = some a ↔ v.toNat < 2 ^ 16 ∧ a = v.setWidth 16 := by
  unfold addrOf
  split_ifs with h
  · simp only [Option.some.injEq, h, true_and]; exact eq_comm
  · exact ⟨nofun, fun e => absurd e.1 h⟩

theorem addrOf_eq_none {v : Word} : addrOf v = none ↔ 2 ^ 16 ≤ v.toNat := by
  unfold addrOf
  split_ifs with h
  · exact ⟨nofun, fun e => absurd h (by omega)⟩
  · simp only [true_iff]; omega

theorem load_eq_some {s : State} {ea v : Word} :
    s.load ea = some v ↔ ea.toNat < s.params.dmemWords ∧ v = s.dataWord ea.toNat := by
  unfold State.load State.admits; split_ifs with h <;> simp_all [eq_comm]

theorem load_eq_none {s : State} {ea : Word} : s.load ea = none ↔ s.params.dmemWords ≤ ea.toNat := by
  unfold State.load State.admits; split_ifs with h <;> simp_all

theorem store_eq_some {s t : State} {ea v : Word} :
    s.store ea v = some t ↔ ea.toNat < s.params.dmemWords ∧ t = s.setDmem (s.dmem.write ea.toNat v) := by
  unfold State.store State.admits; split_ifs with h <;> simp_all [eq_comm]

theorem store_eq_none {s : State} {ea v : Word} : s.store ea v = none ↔ s.params.dmemWords ≤ ea.toNat := by
  unfold State.store State.admits; split_ifs with h <;> simp_all

/-- A store that completes: everything it does. -/
theorem store_completeAt_stores (s : State) (ea : Nat) (v : Word) :
    Stores ea v s ((s.setDmem (s.dmem.write ea v)).completeAt (s.pc + 1)) :=
  ⟨⟨fun r h => (completeAt_readReg _ _ r h).trans (readReg_congr r rfl rfl rfl rfl rfl rfl (.inr rfl)), rfl,
      ⟨rfl, rfl, rfl, rfl⟩⟩, rfl, Memory.read_write_same _ _ _, fun _ h => Memory.read_write_other _ _ _ _ h,
    ⟨rfl, rfl, rfl, rfl, rfl, rfl⟩⟩

theorem fetch_eq_some {s : State} {w : Word} :
    s.fetch = some w ↔ s.pc.toNat < s.params.imemWords ∧ s.imem.read s.pc.toNat = some w := by
  unfold State.fetch; split_ifs with h <;> simp [h]

theorem fetch_eq_none {s : State} :
    s.fetch = none ↔ s.params.imemWords ≤ s.pc.toNat ∨ s.imem.read s.pc.toNat = none := by
  unfold State.fetch; split_ifs with h
  · simp [Nat.not_le.2 h]
  · simp [Nat.not_lt.1 h]

/-! ## The multiplier and the divider -/

/-- The product of two 16-bit numbers fits the register (rule R130). -/
theorem multiplier_toNat (a b : BitVec 16) : (multiplier a b).toNat = a.toNat * b.toNat := by
  rw [multiplier, BitVec.toNat_ofNat, Nat.mod_eq_of_lt]
  calc a.toNat * b.toNat < 2 ^ 16 * 2 ^ 16 := Nat.mul_lt_mul'' a.isLt b.isLt
    _ = 2 ^ 32 := by norm_num

/-- The quotient stands above the remainder (rule R131, decision D14). -/
theorem divider_toNat (a b : BitVec 16) (h : b ≠ 0) :
    (divider a b).toNat = a.toNat / b.toNat * 65536 + a.toNat % b.toNat := by
  have ha := a.isLt
  have hb := b.isLt
  have hpos : 0 < b.toNat := Nat.pos_of_ne_zero fun e => h (BitVec.eq_of_toNat_eq e)
  have hq : a.toNat / b.toNat ≤ a.toNat := Nat.div_le_self _ _
  have hr := Nat.mod_lt a.toNat hpos
  rw [divider, if_neg h, BitVec.toNat_append, BitVec.toNat_ofNat, BitVec.toNat_ofNat,
    Nat.mod_eq_of_lt (by omega), Nat.mod_eq_of_lt (by omega), ← Nat.shiftLeft_add_eq_or_of_lt (by omega),
    Nat.shiftLeft_eq]

/-! ## The interrupt controller -/

theorem mem_serviceOrder (s : State) (src : Source) : src ∈ s.serviceOrder := by
  unfold State.serviceOrder Source.all; cases src <;> simp

theorem intReq_eq_true_iff (s : State) : s.intReq = true ↔ s.ins = false ∧ ∃ src, s.asks src = true := by
  simp only [State.intReq, Bool.and_eq_true, Bool.not_eq_true', Bool.or_eq_true]
  refine and_congr_right fun _ => ⟨?_, ?_⟩
  · rintro (((h | h) | h) | h) <;> exact ⟨_, h⟩
  · rintro ⟨src, h⟩; cases src <;> simp [h]

/-- Every way the selection can come out (rules R205, R208). -/
theorem selected_eq_some {s : State} {src : Source} (h : s.selected = some src) :
    s.ins = false ∧ s.asks src = true := by
  unfold State.selected at h
  split at h
  · exact ⟨((intReq_eq_true_iff s).1 ‹_›).1, List.find?_some h⟩
  · cases h

theorem selected_eq_none {s : State} (h : s.selected = none) : s.ins = true ∨ ∀ src, s.asks src = false := by
  unfold State.selected at h
  split at h
  · exact .inr fun src => by simpa using List.find?_eq_none.1 h src (mem_serviceOrder s src)
  · rename_i hq
    rw [intReq_eq_true_iff] at hq
    by_cases hi : s.ins = true
    · exact .inl hi
    · exact .inr fun src => by
        by_contra hs
        exact hq ⟨by simpa using hi, src, by simpa using hs⟩

/-- With no source enabled, bits 7:4 of `rc` being 0, none is selected (rule R205). -/
theorem selected_of_disabled {s : State} (h : s.rc.extractLsb' 4 4 = 0#4) : s.selected = none := by
  have bit : ∀ k < 4, s.rc.getLsbD (4 + k) = false := by
    intro k hk
    have hb := congrArg (fun x : BitVec 4 => x.getLsbD k) h
    simpa only [BitVec.getLsbD_extractLsb', hk, decide_true, Bool.true_and, BitVec.getLsbD_zero] using hb
  have h0 := bit 0 (by omega)
  have h1 := bit 1 (by omega)
  have h2 := bit 2 (by omega)
  have h3 := bit 3 (by omega)
  unfold State.selected State.intReq State.asks
  simp only [intEnableBit, h0, h1, h2, h3, Bool.and_false, Bool.or_false]
  rfl

/-- Everything an interrupt entry can do (rule R207). -/
theorem enterInterrupt_cases (src : Source) (s : State) :
    (∃ a, addrOf (s.readReg (vectorReg src)) = some a ∧
      enterInterrupt src s = .next (((s.setIpc s.pc).setIns true).setPc a)) ∨
    (addrOf (s.readReg (vectorReg src)) = none ∧ enterInterrupt src s = .refused .vectorOutOfRange) := by
  unfold enterInterrupt; split <;> simp_all

/-! ## The environment -/

/-- Everything the event of a source can do (rule R203). -/
theorem raiseFlag_cases (s : State) (src : Source) (latch : Bool) :
    (s.holdsFlag src = false ∧ (intEnableBit s.rc src = true ∨ latch = true) ∧
      s.raiseFlag src latch = s.setPending (s.pending.raise src)) ∨
    s.raiseFlag src latch = s := by
  unfold State.raiseFlag
  split_ifs with h
  · simp only [Bool.and_eq_true, Bool.not_eq_true', Bool.or_eq_true] at h
    exact .inl ⟨h.1, h.2, rfl⟩
  · exact .inr rfl

theorem timerWord_toNat (s : State) (v : Word) (h : s.params.timerBits ≤ 32) :
    (s.timerWord v).toNat = v.toNat % 2 ^ s.params.timerBits := by
  have hle : 2 ^ s.params.timerBits ≤ 2 ^ 32 := Nat.pow_le_pow_right (by omega) h
  have hpos := Nat.two_pow_pos s.params.timerBits
  rw [State.timerWord, BitVec.toNat_and, BitVec.toNat_ofNat,
    Nat.mod_eq_of_lt (a := 2 ^ s.params.timerBits - 1) (by omega), Nat.and_two_pow_sub_one_eq_mod]

/-- An event changes nothing but the pending flags and the counters (rules R203, R216, R218). -/
theorem applyEvent_eq (s : State) (e : Event) :
    ∃ v w p, s.applyEvent e = (s.setTimers v w).setPending p := by
  have raise : ∀ (u : State) (src : Source) (latch : Bool), ∃ p, u.raiseFlag src latch = u.setPending p := by
    intro u src latch
    obtain ⟨-, -, h⟩ | h := raiseFlag_cases u src latch
    · exact ⟨_, h⟩
    · exact ⟨u.pending, h⟩
  have counter : ∀ n v, ∃ a b, s.setCounter n v = s.setTimers a b := by
    intro n v; cases n <;> exact ⟨_, _, rfl⟩
  cases e with
  | external n latch =>
    obtain ⟨p, hp⟩ := raise s (lineSource n) latch
    exact ⟨s.tmr1, s.tmr2, p, hp⟩
  | tick n latch =>
    simp only [State.applyEvent, State.tick]
    split_ifs
    · obtain ⟨p, hp⟩ := raise (s.setCounter n 0) (timerSource n) latch
      obtain ⟨a, b, hc⟩ := counter n 0
      exact ⟨a, b, p, by rw [hp, hc]⟩
    · obtain ⟨a, b, hc⟩ := counter n (s.timerWord (s.counter n + 1))
      exact ⟨a, b, s.pending, by rw [hc]; rfl⟩
    · exact ⟨s.tmr1, s.tmr2, s.pending, rfl⟩

/-- The turn is decided by the schedule and its free tail alone (rule R9). -/
theorem turn_congr {s t : State} (h1 : t.schedule = s.schedule) (h2 : t.turnDraws = s.turnDraws) : t.turn = s.turn := by
  rw [State.turn, State.turn, h1, h2]

/-- Taking a turn changes nothing the core can see. -/
@[simp] theorem takeTurn_readReg (s : State) (r : RegNum) : s.takeTurn.readReg r = s.readReg r := rfl
@[simp] theorem takeTurn_selected (s : State) : s.takeTurn.selected = s.selected := rfl
@[simp] theorem takeTurn_fetch (s : State) : s.takeTurn.fetch = s.fetch := rfl

/-- Everything an instruction that completes can do: write one register, store one word, or only transfer control. -/
theorem exec_eq_next {i : Instr} {s t : State} (h : exec i s = .next t) :
    (∃ rd v a, destination i = some rd ∧ t = (s.writeReg rd v).completeAt a) ∨
    (∃ ea v, destination i = none ∧ ea < s.params.dmemWords ∧
      t = (s.setDmem (s.dmem.write ea v)).completeAt (s.pc + 1)) ∨
    (∃ a, destination i = none ∧ t = s.completeAt a) := by
  cases i
  case sw rd rs imm =>
    simp only [exec, execSw] at h
    split at h
    · next u hu =>
      obtain ⟨hea, rfl⟩ := store_eq_some.1 hu
      cases h
      exact .inr (.inl ⟨_, _, rfl, hea, rfl⟩)
    · cases h
  case lw rd rs imm =>
    simp only [exec, execLw] at h
    split at h
    · cases h; exact .inl ⟨_, _, _, rfl, rfl⟩
    · cases h
  case jriw rd rs imm =>
    simp only [exec, execJriw] at h
    split at h
    · cases h; exact .inl ⟨_, _, _, rfl, rfl⟩
    · cases h
  case j | blt | beq => cases h; exact .inr (.inr ⟨_, rfl, rfl⟩)
  all_goals (cases h; exact .inl ⟨_, _, _, rfl, rfl⟩)

/-- Every way a step can answer a next state (rules R5, R206): an event, an interrupt entry or an instruction. -/
theorem step_eq_next {s t : State} (h : step s = .next t) :
    (∃ e, s.turn = .env e ∧ t = s.takeTurn.applyEvent e) ∨
    (∃ src, s.turn = .core ∧ s.selected = some src ∧ enterInterrupt src s.takeTurn = .next t) ∨
    (∃ i, Ran i s t) := by
  unfold step at h
  split at h
  · next hn =>
    unfold coreStep at h
    split at h
    · next src hs => exact .inr (.inl ⟨src, hn, hs, h⟩)
    · next hs =>
      unfold fetchAndExecute at h
      split at h
      · cases h
      · next w hw =>
        split at h
        · cases h
        · next i hi => exact .inr (.inr ⟨i, hn, hs, ⟨w, hw, hi⟩, h⟩)
  · next e hn => exact .inl ⟨e, hn, by simpa using h.symm⟩

end Sys2Proof.Machine
end

