-- ==== Sys2Proof/Laws/PerInstr.lean ====
section
/-! SUPPORT. Statements about every instruction as syntax, one lemma per constructor of `Instr`. -/

namespace Sys2Proof.Laws

open Sys2Proof

/-- The opcode of an instruction (`spec/30_encoding.md` rule R83). -/
def opcodeOf : Instr → BitVec 4
  | .add .. | .and .. | .or .. | .xor .. | .nand .. | .nor .. | .sub .. | .neg .. | .inc .. | .mult .. | .div ..
  | .rot .. | .sll .. | .srl .. | .sra .. => 0b0000#4
  | .j .. => 0b0001#4
  | .sw .. => 0b0010#4
  | .lw .. => 0b0011#4
  | .blt .. => 0b0100#4
  | .beq .. => 0b0101#4
  | .jriw .. => 0b0110#4
  | .jal .. => 0b0111#4
  | .addi .. => 0b1000#4
  | .andi .. => 0b1001#4
  | .ori .. => 0b1010#4
  | .xori .. => 0b1011#4
  | .nandi .. => 0b1100#4
  | .nori .. => 0b1101#4
  | .multi .. => 0b1110#4
  | .divi .. => 0b1111#4

/-- The word of an instruction carries its opcode in bits 31:28. -/
def OpcodeBits.Statement (i : Instr) : Prop := fieldOpcode (encode i) = opcodeOf i

theorem OpcodeBits.add (rd rs rt : RegNum) : Statement (.add rd rs rt) := encodeR_fieldOpcode ..
theorem OpcodeBits.and (rd rs rt : RegNum) : Statement (.and rd rs rt) := encodeR_fieldOpcode ..
theorem OpcodeBits.or (rd rs rt : RegNum) : Statement (.or rd rs rt) := encodeR_fieldOpcode ..
theorem OpcodeBits.xor (rd rs rt : RegNum) : Statement (.xor rd rs rt) := encodeR_fieldOpcode ..
theorem OpcodeBits.nand (rd rs rt : RegNum) : Statement (.nand rd rs rt) := encodeR_fieldOpcode ..
theorem OpcodeBits.nor (rd rs rt : RegNum) : Statement (.nor rd rs rt) := encodeR_fieldOpcode ..
theorem OpcodeBits.sub (rd rs rt : RegNum) : Statement (.sub rd rs rt) := encodeR_fieldOpcode ..
theorem OpcodeBits.mult (rd rs rt : RegNum) : Statement (.mult rd rs rt) := encodeR_fieldOpcode ..
theorem OpcodeBits.div (rd rs rt : RegNum) : Statement (.div rd rs rt) := encodeR_fieldOpcode ..
theorem OpcodeBits.neg (rd rt : RegNum) : Statement (.neg rd rt) := encodeR_fieldOpcode ..
theorem OpcodeBits.inc (rd rs : RegNum) : Statement (.inc rd rs) := encodeR_fieldOpcode ..
theorem OpcodeBits.rot (rd rt : RegNum) (shamt : Shamt) : Statement (.rot rd rt shamt) := encodeR_fieldOpcode ..
theorem OpcodeBits.sll (rd rt : RegNum) (shamt : Shamt) : Statement (.sll rd rt shamt) := encodeR_fieldOpcode ..
theorem OpcodeBits.srl (rd rt : RegNum) (shamt : Shamt) : Statement (.srl rd rt shamt) := encodeR_fieldOpcode ..
theorem OpcodeBits.sra (rd rt : RegNum) (shamt : Shamt) : Statement (.sra rd rt shamt) := encodeR_fieldOpcode ..
theorem OpcodeBits.j (target : Addr) : Statement (.j target) := encodeJ_fieldOpcode ..
theorem OpcodeBits.jal (rd : RegNum) (target : Addr) : Statement (.jal rd target) := encodeJ_fieldOpcode ..
theorem OpcodeBits.blt (rd rs : RegNum) (target : Addr) : Statement (.blt rd rs target) := encodeI_fieldOpcode ..
theorem OpcodeBits.beq (rd rs : RegNum) (target : Addr) : Statement (.beq rd rs target) := encodeI_fieldOpcode ..
theorem OpcodeBits.sw (rd rs : RegNum) (imm : Imm) : Statement (.sw rd rs imm) := encodeI_fieldOpcode ..
theorem OpcodeBits.lw (rd rs : RegNum) (imm : Imm) : Statement (.lw rd rs imm) := encodeI_fieldOpcode ..
theorem OpcodeBits.jriw (rd rs : RegNum) (imm : Imm) : Statement (.jriw rd rs imm) := encodeI_fieldOpcode ..
theorem OpcodeBits.addi (rd rs : RegNum) (imm : Imm) : Statement (.addi rd rs imm) := encodeI_fieldOpcode ..
theorem OpcodeBits.andi (rd rs : RegNum) (imm : Imm) : Statement (.andi rd rs imm) := encodeI_fieldOpcode ..
theorem OpcodeBits.ori (rd rs : RegNum) (imm : Imm) : Statement (.ori rd rs imm) := encodeI_fieldOpcode ..
theorem OpcodeBits.xori (rd rs : RegNum) (imm : Imm) : Statement (.xori rd rs imm) := encodeI_fieldOpcode ..
theorem OpcodeBits.nandi (rd rs : RegNum) (imm : Imm) : Statement (.nandi rd rs imm) := encodeI_fieldOpcode ..
theorem OpcodeBits.nori (rd rs : RegNum) (imm : Imm) : Statement (.nori rd rs imm) := encodeI_fieldOpcode ..
theorem OpcodeBits.multi (rd rs : RegNum) (imm : Imm) : Statement (.multi rd rs imm) := encodeI_fieldOpcode ..
theorem OpcodeBits.divi (rd rs : RegNum) (imm : Imm) : Statement (.divi rd rs imm) := encodeI_fieldOpcode ..

end Sys2Proof.Laws
end

