-- ==== Sys2Proof/Tests/Slice0.lean ====
section
/-! SUPPORT. The author's own tests: small vectors of `spec/95_test_vectors.md`, and a witness for the hypotheses of each
statement. Expected values are the spec's, or computed by hand where a comment says so. -/

namespace Sys2Proof.Tests

open Sys2Proof Sys2Proof.Machine Sys2Proof.Config

/-! ## Helpers -/

/-- The state the vectors start from, the core to move: `pc` = 0x0010, default parameters, priority T1 > T2 > E1 > E2. -/
def base : State :=
  { State.reset.coreTurns 1 with pc := 0x10, params := { defaults with priority := Source.all } }

/-- `base` with rg0 and rg1. -/
def rg (a b : Word) : State := (base.setStored 24 a).setStored 25 b

/-- `base` with `rc`, the flags in the order T1, T2, E1, E2, and `INS`. -/
def irq (rc : Word) (t1 t2 e1 e2 ins : Bool) : State := { base with rc := rc, pending := ⟨t1, t2, e1, e2⟩, ins :=
    ins }

/-- The state after an answer, if it is a next state. -/
def after : Result → Option State
  | .next t => some t
  | _ => none

/-- Register `r` and `pc` after an instruction. -/
def result (i : Instr) (s : State) (r : RegNum) : Option (Word × Addr) :=
    (after (exec i s)).map fun t => (t.readReg r, t.pc)

/-- The reason a step or an instruction is declined. -/
def declined : Result → Option Refusal
  | .refused r => some r
  | _ => none

/-- `rc`, the flags, `INS` and the request, after a step or an instruction. -/
def lines (r : Result) : Option (Word × Pending × Bool × Bool) :=
  (after r).map fun t => (t.rc, t.pending, t.ins, t.intReq)

/-- The state with one event of the environment due. -/
def due (e : Event) (s : State) : State := s.setSchedule [.env e]

/-- The decoder's answer, as an option. -/
def decoded (w : Word) : Option Instr := (decode w).toOption

/-- The decoder's reason for refusing a word. -/
def invalid (w : Word) : Option InvalidEncoding :=
  match decode w with
  | .ok _ => none
  | .error e => some e

/-! ## Well-formedness (rule R92) -/

theorem test_wellFormed_refuses_neg : (Instr.neg 27 26).wellFormed = false := by decide
theorem test_wellFormed_accepts_sub : (Instr.sub 27 0 26).wellFormed = true := by decide

/-! ## Decoding: `95_test_vectors.md` section 2.1 -/

theorem test_decode_add : decoded 0x06D96800 = some (.add 27 25 26) := by decide
theorem test_decode_and : decoded 0x06D96801 = some (.and 27 25 26) := by decide
theorem test_decode_or : decoded 0x06D96802 = some (.or 27 25 26) := by decide
theorem test_decode_xor : decoded 0x06D96803 = some (.xor 27 25 26) := by decide
theorem test_decode_nand : decoded 0x06D96804 = some (.nand 27 25 26) := by decide
theorem test_decode_nor : decoded 0x06D96805 = some (.nor 27 25 26) := by decide
theorem test_decode_sub : decoded 0x06D96806 = some (.sub 27 25 26) := by decide
theorem test_decode_neg : decoded 0x06C06806 = some (.sub 27 0 26) := by decide
theorem test_decode_inc : decoded 0x06D90007 = some (.inc 27 25) := by decide
theorem test_decode_mult : decoded 0x06D96888 = some (.mult 27 25 26) := by decide
theorem test_decode_div : decoded 0x06D968C9 = some (.div 27 25 26) := by decide
theorem test_decode_rot : decoded 0x06C0684F = some (.rot 27 26 15) := by decide
theorem test_decode_sll : decoded 0x06C06857 = some (.sll 27 26 7) := by decide
theorem test_decode_srl : decoded 0x06C06864 = some (.srl 27 26 4) := by decide
theorem test_decode_sra : decoded 0x06C0687F = some (.sra 27 26 15) := by decide
theorem test_decode_j : decoded 0x10001234 = some (.j 0x1234) := by decide
theorem test_decode_sw : decoded 0x26D90005 = some (.sw 27 25 5) := by decide
theorem test_decode_lw : decoded 0x36D9FFFF = some (.lw 27 25 0xFFFF) := by decide
theorem test_decode_blt : decoded 0x465A0064 = some (.blt 25 26 100) := by decide
theorem test_decode_beq : decoded 0x565A0064 = some (.beq 25 26 100) := by decide
theorem test_decode_jriw : decoded 0x6EFF10F1 = some (.jriw 59 63 0x10F1) := by decide
theorem test_decode_jal : decoded 0x7BC00200 = some (.jal 47 0x200) := by decide
theorem test_decode_addi : decoded 0x86D9FFFF = some (.addi 27 25 0xFFFF) := by decide
theorem test_decode_andi : decoded 0x96D900FF = some (.andi 27 25 0xFF) := by decide
theorem test_decode_ori : decoded 0xA6C01234 = some (.ori 27 0 0x1234) := by decide
theorem test_decode_xori : decoded 0xB6D9FFFF = some (.xori 27 25 0xFFFF) := by decide
theorem test_decode_nandi : decoded 0xC6D9000F = some (.nandi 27 25 0xF) := by decide
theorem test_decode_nori : decoded 0xD6D90000 = some (.nori 27 25 0) := by decide
theorem test_decode_multi : decoded 0xE6D903E8 = some (.multi 27 25 1000) := by decide
theorem test_decode_divi : decoded 0xF6D90007 = some (.divi 27 25 7) := by decide

theorem test_invalid_inc_rt : invalid 0x06D96807 = some .incRtNotZero := by decide
theorem test_invalid_funct_008 : invalid 0x06D96808 = some .unlistedFunction := by decide
theorem test_invalid_funct_03F : invalid 0x06D9683F = some .unlistedFunction := by decide
theorem test_invalid_funct_080 : invalid 0x06D96880 = some .unlistedFunction := by decide
theorem test_invalid_funct_3FF : invalid 0x06D96BFF = some .unlistedFunction := by decide
theorem test_invalid_shift_rs : invalid 0x06D96854 = some .shiftRsNotZero := by decide
theorem test_invalid_j_unused : invalid 0x10011234 = some .jUnusedNotZero := by decide
theorem test_invalid_jal_unused : invalid 0x7BC10200 = some .jalUnusedNotZero := by decide

theorem test_tableWord : decodeTableWord 32 0x06D968C9 = some (.div 27 25 26) ∧ decodeTableWord 32 0x06D968C8 =
    none := by
  decide
theorem test_encode_jriw : encode (.jriw 59 63 0x10F1) = 0x6EFF10F1#32 := by decide

/-! ## Register-format arithmetic and logic: section 2.2 -/

theorem test_add : result (.add 27 25 26) (rg 0x0000F0F0 0x00FF00FF) 27 = some (0x00FFF1EF, 0x11) := by decide
theorem test_and : result (.and 27 25 26) (rg 0x0000F0F0 0x00FF00FF) 27 = some (0x000000F0, 0x11) := by decide
theorem test_or : result (.or 27 25 26) (rg 0x0000F0F0 0x00FF00FF) 27 = some (0x00FFF0FF, 0x11) := by decide
theorem test_xor : result (.xor 27 25 26) (rg 0x0000F0F0 0x00FF00FF) 27 = some (0x00FFF00F, 0x11) := by decide
theorem test_nand : result (.nand 27 25 26) (rg 0x0000F0F0 0x00FF00FF) 27 = some (0xFFFFFF0F, 0x11) := by decide
theorem test_nor : result (.nor 27 25 26) (rg 0x0000F0F0 0x00FF00FF) 27 = some (0xFF000F00, 0x11) := by decide
theorem test_sub : result (.sub 27 25 26) (rg 0x0000F0F0 0x00FF00FF) 27 = some (0xFF01EFF1, 0x11) := by decide
theorem test_add_wraps : result (.add 27 25 26) (rg 0xFFFFFFFF 1) 27 = some (0, 0x11) := by decide
theorem test_sub_borrows : result (.sub 27 25 26) (rg 0 1) 27 = some (0xFFFFFFFF, 0x11) := by decide
theorem test_neg : result (.neg 27 26) (rg 0 5) 27 = some (0xFFFFFFFB, 0x11) := by decide
theorem test_neg_most_negative : result (.neg 27 26) (rg 0 0x80000000) 27 = some (0x80000000, 0x11) := by decide
theorem test_inc : result (.inc 27 25) (rg 0xFFFFFFFF 0) 27 = some (0, 0x11) := by decide
theorem test_inc_same_register : result (.inc 25 25) (rg 0x7FFFFFFF 0) 25 = some (0x80000000, 0x11) := by decide

/-! ## Multiply and divide: section 2.3 -/

theorem test_mult : result (.mult 27 25 26) (rg 0x1234ABCD 0xFF) 27 = some (0x0000CC33, 0x11) := by decide
theorem test_mult_clears_upper_half : result (.mult 25 25 26) (rg 0xFFFF0003 5) 25 = some (0x0000000F, 0x11) :=
    by decide
theorem test_div : result (.div 27 25 26) (rg 0x00010064 0x00020007) 27 = some (0x000E0002, 0x11) := by decide
theorem test_div_by_zero : exec (.div 27 25 26) (rg 0x64 0x10000) =
    .next (((rg 0x64 0x10000).setStored 26 (div0 0x64)).completeAt 0x11) := by rfl
theorem test_multi : result (.multi 27 25 0xFFFF) (rg 0x0000FFFF 0) 27 = some (0xFFFE0001, 0x11) := by decide
theorem test_multi_unsigned : result (.multi 27 25 0xFFFF) (rg 3 0) 27 = some (0x0002FFFD, 0x11) := by decide
theorem test_divi : result (.divi 27 25 7) (rg 0x0000C350 0) 27 = some (0x1BE60006, 0x11) := by decide
theorem test_divi_by_zero : exec (.divi 27 25 0) (rg 0x1234 0) =
    .next (((rg 0x1234 0).setStored 26 (div0 0x1234)).completeAt 0x11) := by rfl

/-! ## Shifts and rotate: section 2.4 -/

theorem test_rot : result (.rot 27 26 4) (rg 0 0x80000001) 27 = some (0x00000018, 0x11) := by decide
theorem test_rot_by_15 : result (.rot 27 26 15) (rg 0 0x80010003) 27 = some (0x8001C000, 0x11) := by decide
theorem test_sll : result (.sll 27 26 4) (rg 0 0x80000001) 27 = some (0x00000010, 0x11) := by decide
theorem test_sll_by_15 : result (.sll 27 26 15) (rg 0 0x80010003) 27 = some (0x80018000, 0x11) := by decide
theorem test_srl : result (.srl 27 26 4) (rg 0 0x80000001) 27 = some (0x08000000, 0x11) := by decide
theorem test_srl_by_15 : result (.srl 27 26 15) (rg 0 0x80010003) 27 = some (0x00010002, 0x11) := by decide
theorem test_sra : result (.sra 27 26 4) (rg 0 0x80000001) 27 = some (0xF8000000, 0x11) := by decide
theorem test_sra_by_15 : result (.sra 27 26 15) (rg 0 0x80010003) 27 = some (0xFFFF0002, 0x11) := by decide

/-! ## Immediate arithmetic and logic: section 2.5 -/

theorem test_addi : result (.addi 27 25 0xFFFF) (rg 0x0000F0F0 0) 27 = some (0x0000F0EF, 0x11) := by decide
theorem test_addi_op_is_an_output_event : result (.addi 58 0 0x41) (base) 58 = some (0x41, 0x11) := by decide
theorem test_andi : result (.andi 27 25 0xFFFF) (rg 0x12345678 0) 27 = some (0x12345678, 0x11) := by decide
theorem test_andi_masks : result (.andi 27 25 0x7FFF) (rg 0x12345678 0) 27 = some (0x00005678, 0x11) := by decide
theorem test_ori : result (.ori 27 0 0x8000) (base) 27 = some (0xFFFF8000, 0x11) := by decide
theorem test_xori : result (.xori 27 25 0xFFFF) (rg 0x0000F0F0 0) 27 = some (0xFFFF0F0F, 0x11) := by decide
theorem test_nandi : result (.nandi 27 25 0xF) (rg 0x0000F0F0 0) 27 = some (0xFFFFFFFF, 0x11) := by decide
theorem test_nandi_complement : result (.nandi 27 25 0xFFFF) (rg 0x0000F0F0 0) 27 = some (0xFFFF0F0F, 0x11) :=
    by decide
theorem test_nori : result (.nori 27 25 0x8000) (rg 0x0000F0F0 0) 27 = some (0x00000F0F, 0x11) := by decide

/-! ## Load and store: section 2.6 -/

theorem test_sw : (after (exec (.sw 25 26 0xFFFF) (rg 0xCAFEBABE 0x20))).map (fun t => (t.dmem, t.pc)) =
    some ([(0x1F, 0xCAFEBABE)], 0x11) := by decide
theorem test_sw_out_of_range : declined (exec (.sw 26 25 1) (rg 0xFFFF 1)) = some .dataAddressOutOfRange := by decide
theorem test_lw : result (.lw 25 25 0) ((rg 0x20 0).setDmem [(0x20, 0x99)]) 25 = some (0x99, 0x11) := by decide
theorem test_lw_out_of_range : declined (exec (.lw 26 25 0) (rg 0x10000 0)) = some .dataAddressOutOfRange := by decide

/-! ## Control transfer: section 2.7 -/

theorem test_blt_overflow_not_taken : result (.blt 25 26 100) (rg 0x80000000 1) 0 = some (0, 0x11) := by decide
theorem test_blt_overflow_taken : result (.blt 25 26 100) (rg 0x7FFFFFFF 0xFFFFFFFF) 0 = some (0, 0x64) := by decide
theorem test_beq_taken : result (.beq 25 26 100) (rg 0x12345678 0x12345678) 0 = some (0, 0x64) := by decide
theorem test_beq_not_taken : result (.beq 25 26 100) (rg 0x12345678 0x92345678) 0 = some (0, 0x11) := by decide
theorem test_j : result (.j 0x1234) (base) 0 = some (0, 0x1234) := by decide
theorem test_jal : result (.jal 47 0x200) (base.setPc 0x20) 47 = some (0x21, 0x200) := by decide
theorem test_jal_link_wraps : result (.jal 47 0x200) (base.setPc 0xFFFF) 47 = some (0, 0x200) := by decide
theorem test_jriw_same_register : result (.jriw 25 25 7) (rg 0x300 0) 25 = some (7, 0x300) := by decide
theorem test_jriw_out_of_range : declined (exec (.jriw 26 25 0) (rg 0x10000 0)) = some .jumpTargetOutOfRange :=
    by decide

/-! ## Registers (rules R25, R33, R35) -/

theorem test_read_only_registers :
    ∀ r ∈ [0, 60, 61, 63], (after (exec (.addi r 0 5) base)).map (fun t => t.readReg r) = some 0 := by
  decide
theorem test_output_event : (after (exec (.inc 58 58) { base with op := 9 })).map (fun t => (t.op, t.outputs)) =
    some (0xA, [0xA]) := by decide
theorem test_one_sample : result (.xor 27 62 62) { base with portIn := [0x5A5A5A5A] } 27 = some (0, 0x11) := by decide
theorem test_next_sample : result (.addi 27 62 0) { base with portIn := [0xA5, 0xB6] } 62 = some (0xB6, 0x11) :=
    by decide

/-! ## Writes of `rc`: section 2.8 -/

theorem test_rc_clears_and_ends_service : lines (exec (.addi 59 0 0xF1) (irq 0xF0 true false true false true)) =
    some (0xF1, ⟨false, false, true, false⟩, false, true) := by decide
theorem test_rc_enables_only : lines (exec (.addi 59 0 0x50) (irq 0xF0 true false false false true)) =
    some (0x50, ⟨true, false, false, false⟩, true, false) := by decide
theorem test_rc_clears_all : lines (exec (.addi 59 0 0xF) (irq 0 true true true true false)) =
    some (0xF, ⟨false, false, false, false⟩, false, false) := by decide
theorem test_rc_resets_timer : (after (exec (.addi 59 0 0x4000) { irq 0x1000 true false false false true with tmr1 := 5, tmr2 := 9 })).map
    (fun t => (t.tmr1, t.tmr2, t.ins, t.pending.t1)) = some (0, 9, true, true) := by decide

/-! ## Events: section 2.8 -/

theorem test_external_event : lines (step (due (.external .one false) (irq 0x40 false false false false false))) =
    some (0x40, ⟨false, false, true, false⟩, false, true) := by decide
theorem test_external_held : lines (step (due (.external .one true) (irq 0x44 false false false false false))) =
    some (0x44, ⟨false, false, false, false⟩, false, false) := by decide
theorem test_external_pulse : lines (step (due (.external .one false)
    { irq 0x44 false false false false false with params := { base.params with rstMode := .pulse } })) =
    some (0x44, ⟨false, false, true, false⟩, false, true) := by decide
theorem test_external_disabled : lines (step (due (.external .one false) (irq 0 false false false false false))) =
    some (0, ⟨false, false, false, false⟩, false, false) ∧
    lines (step (due (.external .one true) (irq 0 false false false false false))) =
    some (0, ⟨false, false, true, false⟩, false, false) := by decide

/-- Timer 1 at `count`, with the period 2. -/
def timer (rc count : Word) : State := { (irq rc false false false false false).setStored 51 2 with tmr1 := count }

theorem test_tick_counts : (after (step (due (.tick .one false) (timer 0x1010 5)))).map (fun t => (t.tmr1, t.pending.t1)) =
    some (6, false) := by decide
theorem test_tick_overflows : (after (step (due (.tick .one false) (timer 0x1010 2)))).map
    (fun t => (t.tmr1, t.pending.t1, t.intReq)) = some (0, true, true) := by decide
theorem test_tick_stopped : (after (step (due (.tick .one true) (timer 0x10 1)))).map (fun t => t.tmr1) = some 1 :=
    by decide
theorem test_tick_held : (after (step (due (.tick .one true) (timer 0x5010 0)))).map (fun t => t.tmr1) = some 0 :=
    by decide

/-! ## Interrupt entry and return: section 2.9 -/

/-- T1 and E2 pending and enabled at 0x0123, ti1 = 0x0300, eir2 = 0x0400. -/
def both (priority : List Source) : State :=
  { ((irq 0x90 true false false true false).setStored 53 0x300).setStored 56 0x400 with
    pc := 0x123, params := { base.params with priority := priority } }

theorem test_entry_t1 : (after (step (both [.t1, .t2, .e1, .e2]))).map (fun t => (t.pc, t.ipc, t.ins, t.pending)) =
    some (0x300, 0x123, true, ⟨true, false, false, true⟩) := by decide
theorem test_entry_e2 : (after (step (both [.e2, .e1, .t2, .t1]))).map (fun t => (t.pc, t.ipc, t.rc)) =
    some (0x400, 0x123, 0x90) := by decide
theorem test_entry_wide_address : declined (step ((irq 0x40 false false true false false).setStored 55 0x10200)) =
    some .vectorOutOfRange := by decide
theorem test_return : lines (exec (.jriw 59 63 0x44) { irq 0x40 false false true false true with ipc := 0x123 }) =
    some (0x44, ⟨false, false, false, false⟩, false, false) := by decide
theorem test_return_wrong_flag :
    lines (exec (.jriw 59 63 0x48) { irq 0x40 false false true false true with ipc := 0x123 }) =
    some (0x48, ⟨false, false, true, false⟩, false, true) := by decide

/-! ## The step -/

theorem test_step_runs_after_reset : (after (step (State.reset.withFetchWord 32 0x86C0FFFF))).map
    (fun t => (t.readReg 27, t.pc)) = some (0xFFFFFFFF, 1) := by decide
theorem test_step_refuses_empty_memory : declined (step base) = some .fetchOutOfRange := by decide
theorem test_step_refuses_undefined_word : declined (step (base.withFetchWord 32 0x06D96808)) =
    some (.undefinedEncoding .unlistedFunction) := by decide

/-! ## Assembly: sections 1.1, 1.2, 3.1 -/

theorem test_assemble_examples : assemble 0 ["beq rg1, rg0, #16  ;Salto condicional", "lw rg3, r0, #0", "inc op",
    "jriw ra0", "add rg0, rg1", "jriw ipc, rc, 4337"] =
    some [0x56990010, 0x37000000, 0x0EBA0007, 0x602F0000, 0x06596800, 0x6EFF10F1] := by decide
theorem test_assemble_labels : assemble 0 ["LOOP: add rg0, rg0, rg1", "neg rg2, rg1", "blt rg1, rg2, LOOP", "END: j END"] =
    some [0x06596800, 0x06C06806, 0x469B0000, 0x10000003] := by decide
/-- Sections 3.4 and 3.5: a service address written as a label. -/
theorem test_assemble_label_as_immediate : assemble 0x1F ["addi eir1, r0, ISR", "ISR: addi rg1, r0, 1"] =
    some [0x8E000020, 0x86800001] := by decide
theorem test_assemble_bare_ra : assemble 0 ["jriw ra"] = none := by decide

/-! ## Witnesses: the hypotheses of each statement can be met -/

/-- The program `addi rg2, rg0, -1` at the `pc` of a state, the core to move. -/
def loaded (s : State) : State := s.withFetchWord 32 0x86D9FFFF

/-- `base` with a run ended at 0x0010: `j 0x0010` stands there. -/
def ended : State := base.withFetchWord 32 0x10000010

theorem witness_DecodeOfEncode : (Instr.div 63 63 63).wellFormed = true := by decide
theorem witness_EncodeOfDecode : decode 0x06D968C9#32 = .ok (.div 27 25 26) := by rfl
theorem witness_FunctionCode : decode 0x06C0687F#32 = .ok (.sra 27 26 15) ∧ (0x06C0687F#32).extractLsb' 28 4 =
    0x0#4 :=
  ⟨rfl, by decide⟩
theorem witness_StepRuns : (loaded base).turn = .core ∧ (loaded base).selected = none ∧
    (loaded base).pc.toNat < (loaded base).params.imemWords ∧
    (loaded base).imem.read (loaded base).pc.toNat = some 0x86D9FFFF#32 ∧ decode 0x86D9FFFF#32 =
    .ok (.addi 27 25 0xFFFF) :=
  ⟨rfl, rfl, by decide, rfl, rfl⟩
theorem witness_StepRefuses_empty : base.turn = .core ∧ base.selected = none ∧
    base.imem.read base.pc.toNat = none := ⟨rfl, rfl, rfl⟩
theorem witness_StepRefuses_above :
    let s : State := { loaded base with params := { base.params with imemWords := 0x10 } }
    s.turn = .core ∧ s.selected = none ∧ s.params.imemWords ≤ s.pc.toNat := ⟨rfl, rfl, by decide⟩
theorem witness_StepRefuses_undefined :
    let s : State := { base.withFetchWord 32 0x06D96807 with params := { base.params with imemWords := 0x11 } }
    s.turn = .core ∧ s.selected = none ∧ s.pc.toNat < s.params.imemWords ∧
    s.imem.read s.pc.toNat = some 0x06D96807#32 ∧ decode 0x06D96807#32 = .error .incRtNotZero :=
  ⟨rfl, rfl, by decide, rfl, rfl⟩
theorem witness_aStep : ∃ t, step (loaded base) = .next t := ⟨_, rfl⟩
theorem witness_OnlyLoadAndStore_fetch : (loaded base).pc.toNat < (loaded base).params.imemWords := by decide
theorem witness_OnlyLoadAndStore_other :
    (∀ rd rs imm, Instr.add 27 25 26 ≠ .lw rd rs imm ∧ Instr.add 27 25 26 ≠ .sw rd rs imm) ∧
    ∃ t, exec (.add 27 25 26) base = .next t := ⟨fun _ _ _ => ⟨nofun, nofun⟩, _, rfl⟩
theorem witness_OnlyLoadAndStore_lw :
    let s := (rg 0xFFFF 0).setDmem [(0xFFFF, 7)]
    (effectiveAddr (s.readReg 25) 0).toNat < s.params.dmemWords ∧
    s.dmem.read (effectiveAddr (s.readReg 25) 0).toNat = some 7#32 := by decide
theorem witness_RegistersChange : Writable 27 ∧
    ∃ t, step (loaded base) = .next t ∧ t.readReg 27 ≠ (loaded base).readReg 27 := ⟨by decide, _, rfl, by decide⟩
theorem witness_LoadAfterStore : (25 : RegNum) ≠ 62 ∧
    (effectiveAddr ((rg 0xFFFF 0).readReg 25) 0).toNat < (rg 0xFFFF 0).params.dmemWords := by decide
theorem witness_Divide_divisors :
    ((rg 100 0xFFFF).readReg 26).toNat % 65536 ≠ 0 ∧ ((rg 100 1).readReg 26).toNat % 65536 ≠ 0 ∧
    ((rg 100 0x10000).readReg 26).toNat % 65536 = 0 := by decide
theorem witness_Divide_immediates : (1 : Imm).toNat ≠ 0 ∧ (0xFFFF : Imm).toNat ≠ 0 ∧ (0 : Imm).toNat = 0 := by decide
theorem witness_RestoringDivider : (1 : BitVec 16) ≠ 0 ∧ (0xFFFF : BitVec 16) ≠ 0 := by decide
theorem witness_FourInstructions : Writable 1 ∧ Writable 59 := by decide
theorem witness_StoreAndLoad_inRange :
    (effectiveAddr ((rg 0xFFFF 0).readReg 25) 0).toNat < (rg 0xFFFF 0).params.dmemWords := by decide
theorem witness_StoreAndLoad_outOfRange :
    (rg 0xFFFF 0).params.dmemWords ≤ (effectiveAddr ((rg 0xFFFF 0).readReg 25) 1).toNat := by decide
theorem witness_PushThenPop_low :
    let s := base.setStored 50 1
    (25 : RegNum) ≠ 51 ∧ (25 : RegNum) ≠ 62 ∧ Writable 26 ∧ (26 : RegNum) ≠ 51 ∧ 1 ≤ (s.readReg 51).toNat ∧
    (s.readReg 51).toNat ≤ s.params.dmemWords := by decide
theorem witness_PushThenPop_high :
    let s := base.setStored 50 0x10000
    (60 : RegNum) ≠ 51 ∧ (60 : RegNum) ≠ 62 ∧ Writable 58 ∧ (58 : RegNum) ≠ 51 ∧ 1 ≤ (s.readReg 51).toNat ∧
    (s.readReg 51).toNat ≤ s.params.dmemWords := by decide
theorem witness_BranchIfLess_fits :
    let s := rg 0x80000000 0
    (-2 ^ 31 ≤ (s.readReg 25).toInt - (s.readReg 26).toInt) ∧ (s.readReg 25).toInt - (s.readReg 26).toInt < 2 ^ 31 :=
    by decide
theorem witness_BranchIfLess_overflows :
    let s := rg 0x7FFFFFFF 0xFFFFFFFF
    ¬(-2 ^ 31 ≤ (s.readReg 25).toInt - (s.readReg 26).toInt ∧ (s.readReg 25).toInt - (s.readReg 26).toInt < 2 ^ 31) := by
  decide
theorem witness_JumpRegister_inRange : ((rg 0xFFFF 0).readReg 25).toNat < 65536 := by decide
theorem witness_JumpRegister_outOfRange : 65536 ≤ ((rg 0x10000 0).readReg 25).toNat := by decide
theorem witness_Selection : (both [.e2]).selected = some .e2 ∧ (both [.e2]).pending.get .t1 = true ∧
    (both [.e2]).rc.getLsbD (resetBitNumber .t1 + 4) = true := by decide
theorem witness_Entry :
    let s := (irq 0x40 false false true false false).setStored 55 0xFFFF
    s.turn = .core ∧ s.selected = some .e1 ∧ (s.readReg (serviceRegister .e1)).toNat < 65536 :=
  ⟨rfl, rfl, by decide⟩
theorem witness_EntryRefuses :
    let s := (irq 0x40 false false true false false).setStored 55 0x10000
    s.turn = .core ∧ s.selected = some .e1 ∧ 65536 ≤ (s.readReg (serviceRegister .e1)).toNat :=
  ⟨rfl, rfl, by decide⟩

/-- In service of T1, with `addi rc, r0, 1` to run. -/
def serving : State := (irq 0x10 true false false false true).withFetchWord 32 0x8EC00001

theorem witness_ServiceLasts_ends : ∃ t, serving.ins = true ∧ step serving = .next t ∧ t.ins = false ∧
    RanWriting 59 serving t ∧ t.rc.extractLsb' 0 4 ≠ 0#4 :=
  ⟨_, rfl, rfl, rfl, ⟨_, ⟨rfl, rfl, ⟨_, rfl, rfl⟩, rfl⟩, rfl⟩, by decide⟩
theorem witness_ServiceLasts_goesOn :
    let s := (irq 0x21 true false false false true).withFetchWord 32 0x86D9FFFF
    ∃ t, s.ins = true ∧ step s = .next t ∧ t.ins = true ∧ t.rc.extractLsb' 0 4 ≠ 0#4 :=
  ⟨_, rfl, rfl, rfl, by decide⟩
theorem witness_SavedPc :
    let s := (irq 0x40 false false true false false).setStored 55 0x200
    ∃ t, step s = .next t ∧ t.ipc ≠ s.ipc := ⟨_, rfl, by decide⟩
theorem witness_Flags_rise :
    let s := due (.external .one true) base
    ∃ t, step s = .next t ∧ s.pending.get .e1 = false ∧ t.pending.get .e1 = true := ⟨_, rfl, rfl, rfl⟩
theorem witness_Flags_fall : ∃ t, step serving = .next t ∧ serving.pending.get .t1 = true ∧ t.pending.get .t1 =
    false :=
  ⟨_, rfl, rfl, rfl⟩
theorem witness_Flags_reset : ∃ t, step serving = .next t ∧ RanWriting 59 serving t ∧
    t.rc.getLsbD (resetBitNumber .t1) = true :=
  ⟨_, rfl, ⟨_, ⟨rfl, rfl, ⟨_, rfl, rfl⟩, rfl⟩, rfl⟩, by decide⟩
theorem witness_EntryThenReturn :
    ∃ t, enterInterrupt .e1 ((irq 0x40 false false true false false).setStored 55 0x200) = .next t :=
  ⟨_, rfl⟩
theorem witness_Tick_overflows :
    let s := due (.tick .one false) (timer 0x1010 2)
    s.turn = .env (.tick .one false) ∧ s.params.timerBits ≤ 32 ∧ s.rc.getLsbD 12 = true ∧
    (s.params.rstMode = .level → s.rc.getLsbD 14 = false) ∧
    (s.counter .one).toNat = (s.readReg 52).toNat % 2 ^ s.params.timerBits := by decide
theorem witness_Tick_counts :
    let s := due (.tick .two true) { base with rc := 0x2000, tmr2 := 0xFFFFFFFF }
    s.turn = .env (.tick .two true) ∧ s.params.timerBits ≤ 32 ∧ s.rc.getLsbD 13 = true ∧
    (s.params.rstMode = .level → s.rc.getLsbD 15 = false) ∧
    (s.counter .two).toNat ≠ (s.readReg 53).toNat % 2 ^ s.params.timerBits := by decide
theorem witness_StoppedTimer_disabled :
    let s := due (.tick .one true) (timer 0x4010 1)
    s.turn = .env (.tick .one true) ∧ s.rc.getLsbD 12 = false := by decide
theorem witness_StoppedTimer_held :
    let s := due (.tick .two true) { base with rc := 0xA000 }
    s.turn = .env (.tick .two true) ∧ s.params.rstMode = .level ∧ s.rc.getLsbD 15 = true := by decide
theorem witness_ExternalEvent : (due (.external .two false) base).turn = .env (.external .two false) :=
    by decide
theorem witness_InputPort : ∃ t, exec (.addi 27 62 0) { base with portIn := [0xA5] } = .next t := ⟨_, rfl⟩
theorem witness_OutputEvents_write :
    let s := ({ base with op := 0xFFFFFFFF } : State).withFetchWord 32 0x0EBA0007
    ∃ t, step s = .next t ∧ RanWriting 58 s t ∧ t.outputs = [0] :=
  ⟨_, rfl, ⟨_, ⟨rfl, rfl, ⟨_, rfl, rfl⟩, rfl⟩, rfl⟩, by decide⟩
theorem witness_OutputEvents_other : ∃ t, step (loaded base) = .next t ∧ ¬RanWriting 58 (loaded base) t := by
  refine ⟨_, rfl, ?_⟩
  rintro ⟨i, ⟨-, -, ⟨w, hw, hi⟩, -⟩, hd⟩
  obtain rfl : 0x86D9FFFF#32 = w := Option.some.inj hw
  obtain rfl : Instr.addi 27 25 0xFFFF = i := Except.ok.inj hi
  exact absurd hd (by decide)
theorem witness_EnvironmentIsInvisible_event :
    (due (.tick .one false) (timer 0x1010 2)).turn = .env (.tick .one false) := rfl
theorem witness_EnvironmentIsInvisible_core :
    let s := loaded base
    let t : State := { s with tmr1 := 7, pending := ⟨true, true, true, true⟩, portIn := [1], schedule :=
    [.core, .core] }
    SameToProgram s t ∧ s.turn = .core ∧ t.turn = .core ∧ s.rc.extractLsb' 4 4 = 0#4 ∧
    ∀ w i, s.fetch = some w → decode w = .ok i → IgnoresEnvironment i := by
  refine ⟨⟨rfl, rfl, rfl, rfl, rfl, rfl, rfl, rfl, rfl, rfl⟩, rfl, rfl, by decide, fun w i hw hi => ?_⟩
  obtain rfl : 0x86D9FFFF#32 = w := Option.some.inj hw
  obtain rfl : Instr.addi 27 25 0xFFFF = i := Except.ok.inj hi
  decide
theorem witness_Invariant : (loaded base).Inv ∧ ∃ t, step (loaded base) = .next t := by
  refine ⟨⟨⟨by decide, by decide, by decide⟩, by decide, by decide, by decide, by decide, by decide, by decide,
    fun _ => ⟨?_, ?_, ?_, ?_, ?_, ?_⟩, nofun⟩, _, rfl⟩ <;> decide
theorem witness_Launch :
    let p : Params := ⟨2, 65536, 0, .level, [], 1, 0xFFFFFFFF⟩
    let program : Memory := [(1, 0x10000001)]
    let data : Memory := [(0xFFFF, 7)]
    ParamsOk p ∧ program.wf = true ∧ program.below p.imemWords = true ∧ data.wf = true ∧
    data.below p.dmemWords = true := ⟨⟨by decide, by decide, by decide⟩, by decide, by decide, by decide, by decide⟩
theorem witness_EndedRun : ended.Ended 0x10 := ⟨by decide, by decide, by decide⟩
theorem witness_ReadOnly : ∀ r ∈ ([0, 60, 61, 62, 63] : List RegNum), ¬Writable r ∧
    destination (.addi r 25 1) = some r ∧ ∃ t, exec (.addi r 25 1) (rg 7 0) = .next t :=
  fun _ h => ⟨(by decide : ∀ r ∈ ([0, 60, 61, 62, 63] : List RegNum), ¬Writable r) _ h, rfl, _, rfl⟩
theorem witness_Prescaler : (∀ k, k < 8 ∨ 12 ≤ k → (0xF0F1#32).getLsbD k = (0xFFF1#32).getLsbD k) ∧
    (59 : RegNum) ∉ sourceRegisters (.addi 59 25 1) ∧ (59 : RegNum) ∉ sourceRegisters (.sw 25 26 0) := by
  refine ⟨fun k hk => ?_, by decide, by decide⟩
  by_cases h : k < 32
  · exact (by decide : ∀ k < 32, k < 8 ∨ 12 ≤ k → (0xF0F1#32).getLsbD k = (0xFFF1#32).getLsbD k) k h hk
  · rw [BitVec.getLsbD_of_ge _ _ (by omega), BitVec.getLsbD_of_ge _ _ (by omega)]
end Sys2Proof.Tests
end

/-! PROOFS. The statements about the registers themselves (`spec/10_state.md`): the constant zero (rule R26) and the
prescaler fields of `rc` (rule R40). The second is noninterference: each operation of the machine is shown to commute
with `State.setRc` when the new `rc` differs from the old one in bits 11:8 only. -/

namespace Sys2Proof.Machine

open Sys2Proof Sys2Proof.Config

/-! ## The constant zero -/

theorem classify_zero : classify 0 = .zero := (classify_special 0).1.2 rfl

theorem readReg_zero (s : State) : s.readReg 0 = 0 := by simp only [State.readReg, classify_zero]

theorem writeReg_zero (s : State) (v : Word) : s.writeReg 0 v = s := by simp only [State.writeReg, classify_zero]

/-! ## What depends on no bit of `rc`

Reading another register, writing a register and completing an instruction carry any other value of `rc` along. -/

section
variable (s : State) (w : Word)

theorem readReg_setRc {r : RegNum} (h : r ≠ 59) : (s.setRc w).readReg r = s.readReg r := by
  have hrc : classify r ≠ .rc := fun e => h ((classify_special r).2.2.1.1 e)
  unfold State.readReg
  cases hc : classify r with
  | rc => exact absurd hc hrc
  | _ => rfl

theorem writeReg_rc (x : Word) : s.writeReg 59 x = s.writeRc x := by
  have hrc : classify 59 = .rc := (classify_special 59).2.2.1.2 rfl
  simp only [State.writeReg, hrc]

/-- Under a write of `rc` no trace of the old value is left. -/
theorem writeRc_setRc (x : Word) : (s.setRc w).writeRc x = s.writeRc x := rfl

/-- A register write carries `rc` along, unless it is the write of `rc`. -/
theorem writeReg_setRc (rd : RegNum) (x : Word) :
    (s.setRc w).writeReg rd x = if rd = 59 then s.writeReg rd x else (s.writeReg rd x).setRc w := by
  split_ifs with h
  · rw [h, writeReg_rc, writeReg_rc, writeRc_setRc]
  · have hrc : classify rd ≠ .rc := fun e => h ((classify_special rd).2.2.1.1 e)
    unfold State.writeReg
    cases hc : classify rd with
    | rc => exact absurd hc hrc
    | _ => rfl

/-- The end of an instruction with the destination `rd`, wherever it goes on. -/
theorem writeReg_completeAt_setRc (rd : RegNum) (x : Word) (a : Addr) :
    (.next (((s.setRc w).writeReg rd x).completeAt a) : Result) =
      if some rd = some 59 then .next ((s.writeReg rd x).completeAt a)
      else mapNext (fun t => t.setRc w) (.next ((s.writeReg rd x).completeAt a)) := by
  simp only [writeReg_setRc, Option.some.injEq]
  split_ifs <;> rfl

theorem writeResult_setRc (rd : RegNum) (x : Word) :
    writeResult rd x (s.setRc w) =
      if some rd = some 59 then writeResult rd x s else mapNext (fun t => t.setRc w) (writeResult rd x s) :=
  writeReg_completeAt_setRc s w rd x s.nextPc

theorem load_setRc (ea : Word) : (s.setRc w).load ea = s.load ea := rfl

theorem store_setRc (ea x : Word) : (s.setRc w).store ea x = (s.store ea x).map fun t => t.setRc w := by
  have hadmits : (s.setRc w).admits ea = s.admits ea := rfl
  unfold State.store
  rw [hadmits]
  split <;> rfl

/-- The entry reads a service address register, and none of them is `rc`. -/
theorem enterInterrupt_setRc (src : Source) :
    enterInterrupt src (s.setRc w) = mapNext (fun t => t.setRc w) (enterInterrupt src s) := by
  have hvec : vectorReg src ≠ 59 := by cases src <;> decide
  unfold enterInterrupt
  rw [readReg_setRc s w hvec]
  split <;> rfl

/-- An instruction that does not read `rc` does the same whatever all 32 bits of `rc` are. -/
theorem exec_setRc (i : Instr) (h : (59 : RegNum) ∉ sourceRegisters i) :
    exec i (s.setRc w) =
      if destination i = some 59 then exec i s else mapNext (fun t => t.setRc w) (exec i s) := by
  have hread : ∀ r ∈ sourceRegisters i, (s.setRc w).readReg r = s.readReg r :=
    fun r hr => readReg_setRc s w fun e => h (e ▸ hr)
  cases i
  case j target => rfl
  case blt rd rs target | beq rd rs target =>
    simp only [exec, execBlt, execBeq, hread rd (by simp [sourceRegisters]), hread rs (by simp [sourceRegisters])]
    rfl
  case sw rd rs imm =>
    simp only [exec, execSw, hread rd (by simp [sourceRegisters]), hread rs (by simp [sourceRegisters]), store_setRc]
    cases s.store (effectiveAddr (s.readReg rs) imm) (s.readReg rd) <;> rfl
  case lw rd rs imm =>
    simp only [exec, execLw, hread rs (by simp [sourceRegisters]), load_setRc]
    cases s.load (effectiveAddr (s.readReg rs) imm) with
    | some x => exact writeResult_setRc s w rd x
    | none => exact (ite_self _).symm
  case jriw rd rs imm =>
    simp only [exec, execJriw, hread rs (by simp [sourceRegisters])]
    cases addrOf (s.readReg rs) with
    | some a => exact writeReg_completeAt_setRc s w rd _ a
    | none => exact (ite_self _).symm
  case jal rd target => exact writeReg_completeAt_setRc s w rd _ target
  -- Every other instruction writes a function of its sources to `rd` and goes on.
  all_goals
    simp only [sourceRegisters, List.forall_mem_cons] at hread
    simp only [exec, execAdd, execAnd, execOr, execXor, execNand, execNor, execSub, execNeg, execInc, execMult, execDiv,
      execRot, execSll, execSrl, execSra, execAddi, execAndi, execOri, execXori, execNandi, execNori, execMulti,
      execDivi, hread]
    exact writeResult_setRc s w _ _

end

/-! ## The bits of `rc` that the machine reads -/

/-- The two values of `rc` differ at most in the prescaler fields, bits 11:8 (rule R40). -/
def SameButPrescalers (v w : Word) : Prop := ∀ k, k < 8 ∨ 12 ≤ k → w.getLsbD k = v.getLsbD k

section
variable {v w : Word}

theorem SameButPrescalers.flagResetBit (h : SameButPrescalers v w) (src : Source) :
    flagResetBit w src = flagResetBit v src := by
  cases src <;> exact h _ (by omega)

theorem SameButPrescalers.intEnableBit (h : SameButPrescalers v w) (src : Source) :
    intEnableBit w src = intEnableBit v src := by
  cases src <;> exact h _ (by omega)

theorem SameButPrescalers.timerEnableBit (h : SameButPrescalers v w) (n : TimerId) :
    timerEnableBit w n = timerEnableBit v n := by
  cases n <;> exact h _ (by omega)

theorem SameButPrescalers.timerResetBit (h : SameButPrescalers v w) (n : TimerId) :
    timerResetBit w n = timerResetBit v n := by
  cases n <;> exact h _ (by omega)

/-- A write of `rc` looks at the reset bits alone: the two writes differ in what the register then holds. -/
theorem SameButPrescalers.writeRc (h : SameButPrescalers v w) (s : State) :
    s.writeRc w = (s.writeRc v).setRc w := by
  simp only [State.writeRc, raisesRetfi, Pending.clearedBy, h.flagResetBit, h.timerResetBit]
  split_ifs <;> rfl

end

/-! ## What the prescaler fields do not reach -/

section
variable {s : State} {w : Word} (h : SameButPrescalers s.rc w)
include h

theorem asks_setRc_prescalers (src : Source) : (s.setRc w).asks src = s.asks src := by
  simp only [State.asks, State.setRc_pending, State.setRc_rc, h.intEnableBit]

theorem intReq_setRc_prescalers : (s.setRc w).intReq = s.intReq := by
  simp only [State.intReq, State.setRc_ins, asks_setRc_prescalers h]

theorem selected_setRc_prescalers : (s.setRc w).selected = s.selected := by
  have horder : (s.setRc w).serviceOrder = s.serviceOrder := rfl
  have hasks : (s.setRc w).asks = s.asks := funext (asks_setRc_prescalers h)
  simp only [State.selected, intReq_setRc_prescalers h, horder, hasks]

theorem holdsFlag_setRc_prescalers (src : Source) : (s.setRc w).holdsFlag src = s.holdsFlag src := by
  rw [State.holdsFlag, State.setRc_rc, h.flagResetBit]
  rfl

theorem raiseFlag_setRc_prescalers (src : Source) (latch : Bool) :
    (s.setRc w).raiseFlag src latch = (s.raiseFlag src latch).setRc w := by
  simp only [State.raiseFlag, holdsFlag_setRc_prescalers h, State.setRc_rc, h.intEnableBit]
  split_ifs <;> rfl

theorem tickEnabled_setRc_prescalers (n : TimerId) : (s.setRc w).tickEnabled n = s.tickEnabled n := by
  rw [State.tickEnabled, State.setRc_rc, h.timerEnableBit, h.timerResetBit]
  rfl

theorem tick_setRc_prescalers (n : TimerId) (latch : Bool) :
    (s.setRc w).tick n latch = (s.tick n latch).setRc w := by
  have hperiod : (s.setRc w).readReg (periodReg n) = s.readReg (periodReg n) :=
    readReg_setRc s w (by cases n <;> decide)
  have hcounter : (s.setRc w).counter n = s.counter n := by cases n <;> rfl
  have hword : ∀ x, (s.setRc w).timerWord x = s.timerWord x := fun _ => rfl
  have hset : ∀ x, (s.setRc w).setCounter n x = (s.setCounter n x).setRc w := by intro x; cases n <;> rfl
  have hoverflow : SameButPrescalers (s.setCounter n 0).rc w := by cases n <;> exact h
  simp only [State.tick, tickEnabled_setRc_prescalers h, hperiod, hcounter, hword, hset,
    raiseFlag_setRc_prescalers hoverflow]
  split_ifs <;> rfl

theorem applyEvent_setRc_prescalers (e : Event) : (s.setRc w).applyEvent e = (s.applyEvent e).setRc w := by
  cases e with
  | tick n latch => exact tick_setRc_prescalers h n latch
  | external n latch => exact raiseFlag_setRc_prescalers h (lineSource n) latch

end

/-! ## The statements -/

/-- Settles O10: number 0 names no stored register. -/
theorem registerZeroIsConstant : Obligations.RegisterZeroIsConstant :=
  fun s => ⟨readReg_zero s, writeReg_zero s⟩

/-- Settles O51: the machine's accessors of `rc` skip bits 11:8, so every operation commutes with changing them. -/
theorem prescalerBitsAreStoredAndDoNothing : Obligations.PrescalerBitsAreStoredAndDoNothing := by
  intro s v w hbits a b
  have h : SameButPrescalers a.rc w := hbits
  have hb : b = a.setRc w := rfl
  have hback : ∀ x, (s.writeReg 59 x).readReg 59 = x :=
    fun x => (writeReg_registerWritten s 59 x).written (by decide)
  rw [hb]
  refine ⟨hback v, hback w, ?_, applyEvent_setRc_prescalers h, intReq_setRc_prescalers h,
    selected_setRc_prescalers h, fun src => enterInterrupt_setRc a w src, fun i hi => exec_setRc a w i hi⟩
  rw [writeReg_rc, writeReg_rc]
  exact SameButPrescalers.writeRc hbits s

end Sys2Proof.Machine

/-! PROOFS. The statements about the encoding (`spec/30_encoding.md`). Each rests on the case lemmas of the decoder
(`decode_cases`, `decodeRegister_cases`, `decodeShift_cases`) and on the fields of an encoded word. -/

namespace Sys2Proof

open Sys2Proof.Machine

/-! ## What the decoder answers on an encoded word -/

theorem decode_encodeR (rd rs rt : RegNum) (f : BitVec 10) :
    decode (encodeR rd rs rt f) = decodeRegister (encodeR rd rs rt f) :=
  if_pos (encodeR_fieldOpcode rd rs rt f)

theorem encodeR_fieldSelect (rd rs rt : RegNum) (f : BitVec 10) :
    fieldSelect (encodeR rd rs rt f) = f.extractLsb' 6 4 := by
  rw [fieldSelect_eq, encodeR_fieldFunct]

/-- The word of a shift decodes by its shift mode (rules R87, R91). -/
theorem decode_encodeR_shift (rd rt : RegNum) (mode : BitVec 2) (shamt : Shamt) :
    decode (encodeR rd 0 rt (shiftFunct mode shamt)) =
      if mode = 0b00#2 then .ok (.rot rd rt shamt) else if mode = 0b01#2 then .ok (.sll rd rt shamt)
      else if mode = 0b10#2 then .ok (.srl rd rt shamt) else .ok (.sra rd rt shamt) := by
  have hfields := encodeR_shift_fields rd 0 rt mode shamt
  rw [decode_encodeR, decodeRegister, if_pos hfields.1, decodeShift, if_neg (by simp)]
  simp only [hfields, encodeR_fieldRd, encodeR_fieldRt]

/-! ## Machine instructions -/

/-- Every term but the assembler's `neg` is a machine instruction (rule R92). -/
theorem wellFormed_iff (i : Instr) : i.wellFormed = true ↔ ∀ rd rt, i ≠ .neg rd rt := by
  cases i <;> simp [Instr.wellFormed, Instr.isMachineInstr, Instr.canonical]

theorem decodeShift_ne_neg (w : Word) (rd rt : RegNum) : decodeShift w ≠ .ok (.neg rd rt) := by
  obtain ⟨-, h⟩ | ⟨-, -, h⟩ | ⟨-, -, h⟩ | ⟨-, -, h⟩ | ⟨-, -, h⟩ := decodeShift_cases w <;> rw [h] <;> nofun

theorem decodeRegister_ne_neg (w : Word) (rd rt : RegNum) : decodeRegister w ≠ .ok (.neg rd rt) := by
  obtain ⟨-, h⟩ | ⟨-, h⟩ | ⟨-, h⟩ | ⟨-, h⟩ | ⟨-, h⟩ | ⟨-, h⟩ | ⟨-, h⟩ | ⟨-, h⟩ | ⟨-, -, h⟩ | ⟨-, -, h⟩ | ⟨-, h⟩ |
    ⟨-, h⟩ | ⟨-, -, h⟩ := decodeRegister_cases w <;> rw [h]
  case inl => exact decodeShift_ne_neg w rd rt
  all_goals nofun

/-- No word decodes to `neg` (rule R92). -/
theorem decode_ne_neg (w : Word) (rd rt : RegNum) : decode w ≠ .ok (.neg rd rt) := by
  have hj : decodeJ w ≠ .ok (.neg rd rt) := by unfold decodeJ; split <;> nofun
  have hjal : decodeJal w ≠ .ok (.neg rd rt) := by unfold decodeJal; split <;> nofun
  obtain ⟨-, h⟩ | ⟨-, h⟩ | ⟨-, h⟩ | ⟨-, h⟩ | ⟨-, h⟩ | ⟨-, h⟩ | ⟨-, h⟩ | ⟨-, h⟩ | ⟨-, h⟩ | ⟨-, h⟩ | ⟨-, h⟩ | ⟨-, h⟩ |
    ⟨-, h⟩ | ⟨-, h⟩ | ⟨-, h⟩ | ⟨-, h⟩ := decode_cases w <;> rw [h]
  case inl => exact decodeRegister_ne_neg w rd rt
  case inr.inl => exact hj
  case inr.inr.inr.inr.inr.inr.inr.inl => exact hjal
  all_goals nofun

/-! ## A word is the word of what it decodes to -/

theorem encode_of_decodeShift {w : Word} {i : Instr} (hop : fieldOpcode w = 0x0#4) (hsel : fieldSelect w = 0b0001#4)
    (h : decodeShift w = .ok i) : encode i = w := by
  have hw := encodeR_fields w hop
  rw [← shiftFunct_fields w hsel] at hw
  obtain ⟨-, hd⟩ | ⟨hrs, hm, hd⟩ | ⟨hrs, hm, hd⟩ | ⟨hrs, hm, hd⟩ | ⟨hrs, hm, hd⟩ := decodeShift_cases w <;>
    rw [hd] at h <;> cases h
  all_goals
    rw [hrs, hm] at hw
    exact hw

theorem encode_of_decodeRegister {w : Word} {i : Instr} (hop : fieldOpcode w = 0x0#4)
    (h : decodeRegister w = .ok i) : encode i = w := by
  have hw := encodeR_fields w hop
  obtain ⟨hf, hd⟩ | ⟨hf, hd⟩ | ⟨hf, hd⟩ | ⟨hf, hd⟩ | ⟨hf, hd⟩ | ⟨hf, hd⟩ | ⟨hf, hd⟩ | ⟨hf, hd⟩ | ⟨hf, hrt, hd⟩ |
    ⟨-, -, hd⟩ | ⟨hf, hd⟩ | ⟨hf, hd⟩ | ⟨-, -, hd⟩ := decodeRegister_cases w <;> rw [hd] at h
  case inl => exact encode_of_decodeShift hop hf h
  case inr.inr.inr.inr.inr.inr.inr.inr.inl =>
    cases h
    rwa [hf, hrt] at hw
  all_goals cases h
  all_goals
    rw [hf] at hw
    exact hw

/-- The J format: the `rs` field is the six unused bits (rule R86). -/
theorem encodeJ_fields (w : Word) (h : fieldRs w = 0) :
    encodeJ (fieldOpcode w) (fieldRd w) (fieldImm w) = w := by
  have hw := encodeI_fields w
  rw [h] at hw
  exact hw

theorem encode_of_decodeJ {w : Word} {i : Instr} (hop : fieldOpcode w = 0x1#4) (h : decodeJ w = .ok i) :
    encode i = w := by
  unfold decodeJ at h
  split at h
  · next hz =>
    obtain ⟨hrd, hrs⟩ := hz
    cases h
    have hw := encodeJ_fields w hrs
    rwa [hop, hrd] at hw
  · cases h

theorem encode_of_decodeJal {w : Word} {i : Instr} (hop : fieldOpcode w = 0x7#4) (h : decodeJal w = .ok i) :
    encode i = w := by
  unfold decodeJal at h
  split at h
  · next hrs =>
    cases h
    have hw := encodeJ_fields w hrs
    rwa [hop] at hw
  · cases h

theorem encode_of_decode {w : Word} {i : Instr} (h : decode w = .ok i) : encode i = w := by
  have hw := encodeI_fields w
  obtain ⟨hop, hd⟩ | ⟨hop, hd⟩ | ⟨hop, hd⟩ | ⟨hop, hd⟩ | ⟨hop, hd⟩ | ⟨hop, hd⟩ | ⟨hop, hd⟩ | ⟨hop, hd⟩ | ⟨hop, hd⟩ |
    ⟨hop, hd⟩ | ⟨hop, hd⟩ | ⟨hop, hd⟩ | ⟨hop, hd⟩ | ⟨hop, hd⟩ | ⟨hop, hd⟩ | ⟨hop, hd⟩ := decode_cases w <;>
    rw [hd] at h
  case inl => exact encode_of_decodeRegister hop h
  case inr.inl => exact encode_of_decodeJ hop h
  case inr.inr.inr.inr.inr.inr.inr.inl => exact encode_of_decodeJal hop h
  all_goals
    cases h
    rw [hop] at hw
    exact hw

/-! ## The words that are refused -/

theorem decodeShift_error_iff (w : Word) : (∃ why, decodeShift w = .error why) ↔ fieldRs w ≠ 0 := by
  obtain ⟨h, hd⟩ | ⟨h, -, hd⟩ | ⟨h, -, hd⟩ | ⟨h, -, hd⟩ | ⟨h, -, hd⟩ := decodeShift_cases w <;> rw [hd]
  case inl => exact ⟨fun _ => h, fun _ => ⟨_, rfl⟩⟩
  all_goals exact ⟨nofun, fun hne => absurd h hne⟩

theorem decodeJ_error_iff (w : Word) : (∃ why, decodeJ w = .error why) ↔ ¬(fieldRd w = 0 ∧ fieldRs w = 0) := by
  unfold decodeJ
  split_ifs with h
  · exact ⟨nofun, fun hne => absurd h hne⟩
  · exact ⟨fun _ => h, fun _ => ⟨_, rfl⟩⟩

theorem decodeJal_error_iff (w : Word) : (∃ why, decodeJal w = .error why) ↔ fieldRs w ≠ 0 := by
  unfold decodeJal
  split_ifs with h
  · exact ⟨nofun, fun hne => absurd h hne⟩
  · exact ⟨fun _ => h, fun _ => ⟨_, rfl⟩⟩

/-- The function codes with the select field 0001 are 0x040 to 0x07F (rule R91). -/
theorem fieldSelect_shift_iff (w : Word) :
    fieldSelect w = 0b0001#4 ↔ 0x040 ≤ (fieldFunct w).toNat ∧ (fieldFunct w).toNat ≤ 0x07F := by
  have hlt := (fieldFunct w).isLt
  rw [fieldSelect_eq, ← BitVec.toNat_inj, BitVec.extractLsb'_toNat, Nat.shiftRight_eq_div_pow]
  simp only [BitVec.toNat_ofNat]
  omega

theorem decodeRegister_error_iff (w : Word) :
    let funct := (fieldFunct w).toNat
    let shift := 0x040 ≤ funct ∧ funct ≤ 0x07F
    (∃ why, decodeRegister w = .error why) ↔
      ¬(funct ≤ 0x007 ∨ shift ∨ funct = 0x088 ∨ funct = 0x0C9) ∨ (funct = 0x007 ∧ fieldRt w ≠ 0) ∨
      (shift ∧ fieldRs w ≠ 0) := by
  intro funct shift
  have hsel : fieldSelect w = 0b0001#4 ↔ shift := fieldSelect_shift_iff w
  obtain ⟨hf, hd⟩ | ⟨hf, hd⟩ | ⟨hf, hd⟩ | ⟨hf, hd⟩ | ⟨hf, hd⟩ | ⟨hf, hd⟩ | ⟨hf, hd⟩ | ⟨hf, hd⟩ | ⟨hf, hrt, hd⟩ |
    ⟨hf, hrt, hd⟩ | ⟨hf, hd⟩ | ⟨hf, hd⟩ | ⟨hs, hf, hd⟩ := decodeRegister_cases w <;> rw [hd]
  case inl =>
    have hshift := hsel.1 hf
    have hne : funct ≠ 0x007 := by omega
    rw [decodeShift_error_iff]
    simp [hshift, hne]
  case inr.inr.inr.inr.inr.inr.inr.inr.inr.inr.inr.inr =>
    have hcode : ∀ k, funct = k → fieldFunct w = BitVec.ofNat 10 k := by
      rintro k rfl
      rw [BitVec.ofNat_toNat, BitVec.setWidth_eq]
    have hlisted : ∀ k < 8, funct ≠ k := by
      intro k hk e
      have hcode := hcode k e
      interval_cases k <;> simp_all
    have hmult : funct ≠ 0x088 := fun e => hf (by rw [hcode _ e]; decide)
    have hdiv : funct ≠ 0x0C9 := fun e => hf (by rw [hcode _ e]; decide)
    have hsmall : ¬funct ≤ 0x007 := fun hle => hlisted funct (by omega) rfl
    have hns : ¬shift := fun e => hs (hsel.2 e)
    simp [hsmall, hns, hmult, hdiv]
  all_goals simp_all [funct, shift]

theorem extract_jUnused (w : Word) : w.extractLsb' 16 12 = fieldRd w ++ fieldRs w := by
  rw [fieldRd, fieldRs, BitVec.extractLsb'_append_extractLsb'_eq_extractLsb' (by omega)]

/-! ## The function code -/

/-- Bits of the function code are bits of the word. -/
theorem extract_fieldFunct (w : Word) (a n : Nat) (h : a + n ≤ 10) :
    w.extractLsb' a n = (fieldFunct w).extractLsb' a n := by
  apply BitVec.eq_of_getLsbD_eq
  intro k hk
  have : a + k < 10 := by omega
  simp [fieldFunct, BitVec.getLsbD_extractLsb', this]

/-- Bits of the select field are bits of the word. -/
theorem extract_fieldSelect (w : Word) (a n : Nat) (h : a + n ≤ 4) :
    w.extractLsb' (6 + a) n = (fieldSelect w).extractLsb' a n := by
  apply BitVec.eq_of_getLsbD_eq
  intro k hk
  have : a + k < 4 := by omega
  simp [fieldSelect, BitVec.getLsbD_extractLsb', this, Nat.add_assoc]

/-! ## The statements -/

/-- Settles O1: by the format of the instruction, the fields of its word being its operands. -/
theorem decodeOfEncodeIsIdentity : Obligations.DecodeOfEncodeIsIdentity := by
  intro i hwf
  cases i
  case neg rd rt => exact absurd rfl ((wellFormed_iff _).1 hwf rd rt)
  case rot | sll | srl | sra => exact decode_encodeR_shift ..
  case j | jal => simp [encode, decode, decodeJ, decodeJal]
  case add | and | or | xor | nand | nor | sub | inc | mult | div =>
    simp [encode, decode_encodeR, decodeRegister, encodeR_fieldSelect]
  all_goals simp [encode, decode]

/-- Settles O2: by the decoder's cases, each word being put together from its own fields. -/
theorem encodeOfDecodeIsIdentity : Obligations.EncodeOfDecodeIsIdentity :=
  fun w _ h => ⟨encode_of_decode h, (wellFormed_iff _).2 fun rd rt e => decode_ne_neg w rd rt (e ▸ h)⟩

/-- Settles O3: opcode by opcode; only opcodes 0000, 0001 and 0111 have a decoder that can refuse. -/
theorem refusedWordsAreTheListedKinds : Obligations.RefusedWordsAreTheListedKinds := by
  intro w funct shift
  have hopcode : w.extractLsb' 28 4 = fieldOpcode w := rfl
  have hrs : w.extractLsb' 16 6 = fieldRs w := rfl
  have hrt : w.extractLsb' 10 6 = fieldRt w := rfl
  have hunused : w.extractLsb' 16 12 ≠ 0#12 ↔ ¬(fieldRd w = 0 ∧ fieldRs w = 0) := by
    rw [extract_jUnused, ne_eq, ← BitVec.toNat_inj, ← BitVec.toNat_inj, ← BitVec.toNat_inj, BitVec.toNat_append,
      ← Nat.shiftLeft_add_eq_or_of_lt (fieldRs w).isLt, Nat.shiftLeft_eq]
    simp only [BitVec.ofNat_eq_ofNat, BitVec.toNat_ofNat]
    omega
  rw [hopcode, hrs, hrt, hunused]
  obtain ⟨hop, hd⟩ | ⟨hop, hd⟩ | ⟨hop, hd⟩ | ⟨hop, hd⟩ | ⟨hop, hd⟩ | ⟨hop, hd⟩ | ⟨hop, hd⟩ | ⟨hop, hd⟩ | ⟨hop, hd⟩ |
    ⟨hop, hd⟩ | ⟨hop, hd⟩ | ⟨hop, hd⟩ | ⟨hop, hd⟩ | ⟨hop, hd⟩ | ⟨hop, hd⟩ | ⟨hop, hd⟩ := decode_cases w <;> rw [hd, hop]
  case inl =>
    have herror := decodeRegister_error_iff w
    simpa [funct, shift, fieldFunct] using herror
  case inr.inl => rw [decodeJ_error_iff]; simp
  case inr.inr.inr.inr.inr.inr.inr.inl => rw [decodeJal_error_iff]; simp
  all_goals simp

/-- Settles O4: the decoder runs on each word. -/
theorem sampleWordsDecode : Obligations.SampleWordsDecode := ⟨rfl, rfl, rfl, rfl, rfl, rfl, rfl⟩

/-- Settles O5: register 0 reads 0, so the two subtractions are one; the word decodes by O1. -/
theorem negIsSubFromRegisterZero : Obligations.NegIsSubFromRegisterZero := by
  intro rd rt s
  have hexec : exec (.neg rd rt) s = exec (.sub rd 0 rt) s := by
    simp only [exec, execNeg, execSub, readReg_zero]
  exact ⟨rfl, decodeOfEncodeIsIdentity (.sub rd 0 rt) ((wellFormed_iff _).2 nofun), hexec,
    fun w => decode_ne_neg w rd rt⟩

/-- Settles O6: function code by function code; the parts of a shift's code are its select, mode and amount fields. -/
theorem functionCodeCarriesOperation : Obligations.FunctionCodeCarriesOperation := by
  intro w i h hop
  have hd : decode w = decodeRegister w := if_pos hop
  rw [hd] at h
  rw [extract_fieldFunct w 8 2 (by omega), extract_fieldFunct w 6 2 (by omega), extract_fieldFunct w 4 2 (by omega),
    extract_fieldFunct w 0 4 (by omega), extract_fieldFunct w 0 3 (by omega)]
  obtain ⟨hsel, hd⟩ | ⟨hf, hd⟩ | ⟨hf, hd⟩ | ⟨hf, hd⟩ | ⟨hf, hd⟩ | ⟨hf, hd⟩ | ⟨hf, hd⟩ | ⟨hf, hd⟩ | ⟨hf, -, hd⟩ |
    ⟨-, -, hd⟩ | ⟨hf, hd⟩ | ⟨hf, hd⟩ | ⟨-, -, hd⟩ := decodeRegister_cases w <;> rw [hd] at h
  case inl =>
    rw [← extract_fieldFunct w 8 2 (by omega), ← extract_fieldFunct w 6 2 (by omega),
      ← extract_fieldFunct w 4 2 (by omega), ← extract_fieldFunct w 0 4 (by omega)]
    have hhigh : w.extractLsb' 8 2 = 0#2 := by rw [extract_fieldSelect w 2 2 (by omega), hsel]; decide
    have hselect : w.extractLsb' 6 2 = 0b01#2 := by rw [extract_fieldSelect w 0 2 (by omega), hsel]; decide
    have hmode : w.extractLsb' 4 2 = fieldShiftMode w := rfl
    have hshamt : w.extractLsb' 0 4 = fieldShamt w := rfl
    rw [hhigh, hselect, hmode, hshamt]
    obtain ⟨-, hd⟩ | ⟨-, hm, hd⟩ | ⟨-, hm, hd⟩ | ⟨-, hm, hd⟩ | ⟨-, hm, hd⟩ := decodeShift_cases w <;>
      rw [hd] at h <;> cases h <;> rw [hm] <;> exact ⟨rfl, rfl, rfl, rfl, rfl⟩
  all_goals cases h
  all_goals
    rw [hf]
    exact ⟨rfl, rfl, rfl, rfl, rfl⟩

end Sys2Proof

/-! PROOFS. What the flags, the counters and the registers read after each operation, every way a step can come out
(`StepOutcome`), and the invariant of the machine (`State.Inv`). -/

namespace Sys2Proof.Machine

open Sys2Proof Sys2Proof.Config

/-! ## The bits of `rc` by number -/

theorem flagResetBit_eq (rc : Word) (src : Source) : flagResetBit rc src = rc.getLsbD (resetBitNumber src) := by
  cases src <;> rfl

theorem intEnableBit_eq (rc : Word) (src : Source) : intEnableBit rc src = rc.getLsbD (resetBitNumber src + 4) := by
  cases src <;> rfl

theorem vectorReg_eq (src : Source) : vectorReg src = serviceRegister src := by cases src <;> rfl

/-! ## Flags and counters -/

theorem Pending.get_raise (p : Pending) (src q : Source) :
    (p.raise src).get q = if q = src then true else p.get q := by
  cases src <;> cases q <;> rfl

theorem Pending.get_clearedBy (p : Pending) (v : Word) (q : Source) :
    (p.clearedBy v).get q = (p.get q && !flagResetBit v q) := by
  cases q <;> rfl

theorem counter_setCounter (s : State) (n m : TimerId) (v : Word) :
    (s.setCounter n v).counter m = if m = n then v else s.counter m := by
  cases n <;> cases m <;> rfl

section
variable (s : State) (n : TimerId) (v : Word)

@[simp] theorem setCounter_pending : (s.setCounter n v).pending = s.pending := by cases n <;> rfl
@[simp] theorem setCounter_rc : (s.setCounter n v).rc = s.rc := by cases n <;> rfl
@[simp] theorem setCounter_params : (s.setCounter n v).params = s.params := by cases n <;> rfl
@[simp] theorem setCounter_imem : (s.setCounter n v).imem = s.imem := by cases n <;> rfl
@[simp] theorem setCounter_dmem : (s.setCounter n v).dmem = s.dmem := by cases n <;> rfl
@[simp] theorem setCounter_op : (s.setCounter n v).op = s.op := by cases n <;> rfl
@[simp] theorem setCounter_outputs : (s.setCounter n v).outputs = s.outputs := by cases n <;> rfl

end

/-- `level` holds the flags and the counters of the reset bits that are 1 (rules R38, R41), said of all sources and both
timers at once. -/
theorem held_iff (s : State) :
    Held s ↔ (∀ src, flagResetBit s.rc src = true → s.pending.get src = false) ∧
      ∀ n, timerResetBit s.rc n = true → s.counter n = 0 := by
  constructor
  · intro h
    exact ⟨fun src => by cases src; exacts [h.t1, h.t2, h.e1, h.e2], fun n => by cases n; exacts [h.tmr1, h.tmr2]⟩
  · rintro ⟨hflag, htimer⟩
    exact ⟨hflag .t1, hflag .t2, hflag .e1, hflag .e2, htimer .one, htimer .two⟩

/-! ## The event of a source -/

section
variable (s : State) (src : Source) (latch : Bool)

@[simp] theorem raiseFlag_counter (n : TimerId) : (s.raiseFlag src latch).counter n = s.counter n := by
  obtain ⟨-, -, h⟩ | h := raiseFlag_cases s src latch <;> rw [h]
  cases n <;> rfl

/-- Rule R203, for the source of the event. -/
theorem raiseFlag_get_same : (s.raiseFlag src latch).pending.get src = flagAfterEvent s src latch := by
  rw [State.raiseFlag, State.holdsFlag, flagResetBit_eq, intEnableBit_eq, flagAfterEvent]
  split_ifs with h
  · rw [State.setPending_pending, Pending.get_raise, if_pos rfl, h, Bool.or_true]
  · rw [Bool.not_eq_true] at h
    rw [h, Bool.or_false]

theorem raiseFlag_get_other {q : Source} (hq : q ≠ src) :
    (s.raiseFlag src latch).pending.get q = s.pending.get q := by
  obtain ⟨-, -, h⟩ | h := raiseFlag_cases s src latch <;> rw [h]
  rw [State.setPending_pending, Pending.get_raise, if_neg hq]

end

/-! ## The tick of a timer -/

/-- Rule R215. -/
theorem tickEnabled_iff (s : State) (n : TimerId) :
    s.tickEnabled n = true ↔
      timerEnableBit s.rc n = true ∧ (s.params.rstMode = .level → timerResetBit s.rc n = false) := by
  by_cases h : s.params.rstMode = .level <;> simp [State.tickEnabled, h]

theorem tick_of_disabled {s : State} {n : TimerId} (latch : Bool) (h : ¬s.tickEnabled n = true) :
    s.tick n latch = s :=
  if_neg h

/-- At the period the counter restarts and the timer's source has its event (rule R216). -/
theorem tick_at_period {s : State} {n : TimerId} (latch : Bool) (h : s.tickEnabled n = true)
    (hperiod : s.counter n = s.timerWord (s.readReg (periodReg n))) :
    s.tick n latch = (s.setCounter n 0).raiseFlag (timerSource n) latch := by
  rw [State.tick, if_pos h, if_pos hperiod]

/-- Before the period the counter goes up by one (rule R216). -/
theorem tick_before_period {s : State} {n : TimerId} (latch : Bool) (h : s.tickEnabled n = true)
    (hperiod : s.counter n ≠ s.timerWord (s.readReg (periodReg n))) :
    s.tick n latch = s.setCounter n (s.timerWord (s.counter n + 1)) := by
  rw [State.tick, if_pos h, if_neg hperiod]

theorem tick_get_other (s : State) (n : TimerId) (latch : Bool) {q : Source} (hq : q ≠ timerSource n) :
    (s.tick n latch).pending.get q = s.pending.get q := by
  unfold State.tick
  split_ifs
  · rw [raiseFlag_get_other _ _ _ hq, setCounter_pending]
  · rw [setCounter_pending]
  · rfl

/-- An event changes no flag but its source's. -/
theorem applyEvent_get_other (s : State) (e : Event) {q : Source} (hq : q ≠ eventSource e) :
    (s.applyEvent e).pending.get q = s.pending.get q := by
  cases e with
  | tick n latch => exact tick_get_other s n latch (by cases n <;> exact hq)
  | external n latch => exact raiseFlag_get_other s _ latch (by cases n <;> exact hq)

theorem raiseFlag_get_mono (s : State) (src q : Source) (latch : Bool) (hq : s.pending.get q = true) :
    (s.raiseFlag src latch).pending.get q = true := by
  by_cases h : q = src
  · rw [h, raiseFlag_get_same, flagAfterEvent, ← h, hq, Bool.true_or]
  · rw [raiseFlag_get_other s src latch h, hq]

/-- No event clears a flag. -/
theorem applyEvent_get_mono (s : State) (e : Event) (q : Source) (hq : s.pending.get q = true) :
    (s.applyEvent e).pending.get q = true := by
  cases e with
  | external n latch => exact raiseFlag_get_mono s _ q latch hq
  | tick n latch =>
    simp only [State.applyEvent, State.tick]
    split_ifs
    · exact raiseFlag_get_mono _ _ q latch (by rwa [setCounter_pending])
    · rwa [setCounter_pending]
    · exact hq

/-! ## Reading a register after an update -/

theorem readReg_op (s : State) : s.readReg 58 = s.op := rfl
theorem readReg_rc (s : State) : s.readReg 59 = s.rc := rfl
theorem readReg_tmr1 (s : State) : s.readReg 60 = s.tmr1 := rfl
theorem readReg_tmr2 (s : State) : s.readReg 61 = s.tmr2 := rfl
theorem readReg_ip (s : State) : s.readReg 62 = s.portSample := rfl
theorem readReg_ipc (s : State) : s.readReg 63 = s.ipc.setWidth 32 := rfl

/-- Reading a register looks at no other register: the special ones need agree only where `r` is their number. -/
theorem readReg_congr_of_ne {s t : State} {r : RegNum} (hregs : t.regs = s.regs) (hop : t.op = s.op)
    (hrc : t.rc = s.rc) (h60 : r ≠ 60 ∨ t.tmr1 = s.tmr1) (h61 : r ≠ 61 ∨ t.tmr2 = s.tmr2)
    (h62 : r ≠ 62 ∨ t.portSample = s.portSample) (h63 : r ≠ 63 ∨ t.ipc = s.ipc) : t.readReg r = s.readReg r := by
  obtain ⟨-, -, -, htmr1, htmr2, hip, hipc⟩ := classify_special r
  unfold State.readReg
  cases hc : classify r with
  | tmr1 => exact h60.resolve_left (not_not.2 (htmr1.1 hc))
  | tmr2 => exact h61.resolve_left (not_not.2 (htmr2.1 hc))
  | ip => exact h62.resolve_left (not_not.2 (hip.1 hc))
  | ipc => exact congrArg (BitVec.setWidth 32) (h63.resolve_left (not_not.2 (hipc.1 hc)))
  | _ => simp only [hregs, hop, hrc]

/-- Only the two counters and the flags move when the environment acts. -/
theorem readReg_applyEvent (s : State) (e : Event) (r : RegNum) (h1 : r ≠ 60) (h2 : r ≠ 61) :
    (s.applyEvent e).readReg r = s.readReg r := by
  obtain ⟨v, w, p, he⟩ := applyEvent_eq s e
  rw [he]
  exact readReg_congr_of_ne rfl rfl rfl (.inl h1) (.inl h2) (.inr rfl) (.inr rfl)

/-- An event of the environment shows in nothing but the flags and the counters (rule R224). -/
theorem applyEvent_sameToCore (s : State) (e : Event) : SameToCore s (s.applyEvent e) := by
  have hreg := readReg_applyEvent s e
  obtain ⟨v, w, p, he⟩ := applyEvent_eq s e
  rw [he] at hreg ⊢
  exact ⟨hreg, rfl, rfl, fun _ => rfl, rfl, rfl, rfl⟩

theorem applyEvent_schedule (s : State) (e : Event) : (s.applyEvent e).schedule = s.schedule := by
  obtain ⟨v, w, p, he⟩ := applyEvent_eq s e
  rw [he]
  rfl

/-- The state after an interrupt entry that goes to `a` (rule R207). -/
def State.entered (s : State) (a : Addr) : State := ((s.setIpc s.pc).setIns true).setPc a

theorem readReg_entered (s : State) (a : Addr) (r : RegNum) (h : r ≠ 63) : (s.entered a).readReg r = s.readReg r :=
  readReg_congr_of_ne rfl rfl rfl (.inr rfl) (.inr rfl) (.inr rfl) (.inl h)

/-! ## A register write, field by field -/

theorem writeRc_pending (s : State) (v : Word) : (s.writeRc v).pending = s.pending.clearedBy v := by
  by_cases h : raisesRetfi v = true <;> simp [State.writeRc, h, State.retfi]

theorem writeRc_rc (s : State) (v : Word) : (s.writeRc v).rc = v := by
  obtain ⟨-, -, hrc, -⟩ := writeRc_frame s v
  exact hrc

theorem writeRc_counter (s : State) (v : Word) (n : TimerId) :
    (s.writeRc v).counter n = if timerResetBit v n then 0 else s.counter n := by
  by_cases h : raisesRetfi v = true <;> cases n <;> simp [State.writeRc, h, State.retfi, State.counter]

theorem writeReg_op (s : State) (v : Word) : s.writeReg 58 v = s.emitOp v := rfl

section
variable (s : State) (rd : RegNum) (v : Word)

theorem writeReg_pending :
    (s.writeReg rd v).pending = if rd = 59 then s.pending.clearedBy v else s.pending := by
  split_ifs with h
  · rw [h, writeReg_rc, writeRc_pending]
  · exact ((writeReg_registerWritten s rd v).devices h).pending

theorem writeReg_ins :
    (s.writeReg rd v).ins = if rd = 59 then s.ins && decide (v.extractLsb' 0 4 = 0#4) else s.ins := by
  split_ifs with h
  · rw [h, writeReg_rc]
    exact (writeRc_rcWritten s v).ins
  · exact ((writeReg_registerWritten s rd v).devices h).ins

theorem writeReg_counter (n : TimerId) :
    (s.writeReg rd v).counter n = if rd = 59 ∧ timerResetBit v n then 0 else s.counter n := by
  by_cases h : rd = 59
  · rw [h, writeReg_rc, writeRc_counter]
    simp only [true_and]
  · have hdev := (writeReg_registerWritten s rd v).devices h
    rw [if_neg fun e => h e.1]
    cases n
    exacts [hdev.tmr1, hdev.tmr2]

theorem writeReg_ipc : (s.writeReg rd v).ipc = s.ipc := (writeReg_frame s rd v).1

theorem writeReg_rc_eq : (s.writeReg rd v).rc = if rd = 59 then v else s.rc := by
  have hw := writeReg_registerWritten s rd v
  rw [← readReg_rc, ← readReg_rc]
  split_ifs with h
  · subst h
    exact hw.written (by decide)
  · exact hw.others 59 (Ne.symm h) (by decide) (fun e => absurd e h)

theorem writeReg_op_eq : (s.writeReg rd v).op = if rd = 58 then v else s.op := by
  have hw := writeReg_registerWritten s rd v
  rw [← readReg_op, ← readReg_op]
  split_ifs with h
  · subst h
    exact hw.written (by decide)
  · exact hw.others 58 (Ne.symm h) (by decide) (fun _ => by decide)

end

/-! ## Every way a step can come out -/

/-- Everything a step from `s` that answers the next state `t` can have done. -/
inductive StepOutcome (s t : State) : Prop
  /-- An event of the environment (rule R5). -/
  | event (e : Event) (turn : s.turn = .env e) (next : t = s.takeTurn.applyEvent e)
  /-- An interrupt entry (rule R207). -/
  | entry (src : Source) (a : Addr) (turn : s.turn = .core) (selected : s.selected = some src)
      (address : addrOf (s.readReg (vectorReg src)) = some a) (next : t = s.takeTurn.entered a)
  /-- An instruction with the destination `rd`. -/
  | wrote (rd : RegNum) (v : Word) (a : Addr) (ran : RanWriting rd s t)
      (next : t = (s.takeTurn.writeReg rd v).completeAt a)
  /-- A store of one word. -/
  | stored (ea : Nat) (v : Word) (bound : ea < s.params.dmemWords)
      (next : t = (s.takeTurn.setDmem (s.dmem.write ea v)).completeAt (s.pc + 1))
  /-- A transfer of control that writes nothing. -/
  | went (a : Addr) (next : t = s.takeTurn.completeAt a)

theorem enterInterrupt_eq_next {src : Source} {s t : State} (h : enterInterrupt src s = .next t) :
    ∃ a, addrOf (s.readReg (vectorReg src)) = some a ∧ t = s.entered a := by
  obtain ⟨a, ha, hn⟩ | ⟨-, hn⟩ := enterInterrupt_cases src s <;> rw [hn] at h <;> cases h
  exact ⟨a, ha, rfl⟩

theorem stepOutcome {s t : State} (h : step s = .next t) : StepOutcome s t := by
  obtain ⟨e, hturn, hnext⟩ | ⟨src, hturn, hsel, hentry⟩ | ⟨i, hran⟩ := step_eq_next h
  · exact .event e hturn hnext
  · obtain ⟨a, ha, hnext⟩ := enterInterrupt_eq_next hentry
    exact .entry src a hturn hsel ha hnext
  · obtain ⟨rd, v, a, hd, hnext⟩ | ⟨ea, v, -, hea, hnext⟩ | ⟨a, -, hnext⟩ := exec_eq_next hran.result
    · exact .wrote rd v a ⟨i, hran, hd⟩ hnext
    · exact .stored ea v hea hnext
    · exact .went a hnext

/-- What a step that ran an instruction with the destination `rd` did. -/
theorem RanWriting.next {rd : RegNum} {s t : State} (h : RanWriting rd s t) :
    ∃ v a, t = (s.takeTurn.writeReg rd v).completeAt a := by
  obtain ⟨i, hran, hdest⟩ := h
  obtain ⟨rd', v, a, hd, hnext⟩ | ⟨-, -, hd, -, -⟩ | ⟨-, hd, -⟩ := exec_eq_next hran.result <;>
    rw [hdest] at hd <;> cases hd
  exact ⟨v, a, hnext⟩

theorem step_of_event {s : State} {e : Event} (h : s.turn = .env e) : step s = .next (s.takeTurn.applyEvent e) := by
  simp only [step, h]

theorem step_of_selected {s : State} {src : Source} (hturn : s.turn = .core) (hsel : s.selected = some src) :
    step s = enterInterrupt src s.takeTurn := by
  simp only [step, hturn, coreStep, takeTurn_selected, hsel]

theorem step_of_unselected {s : State} (hturn : s.turn = .core) (hsel : s.selected = none) :
    step s = fetchAndExecute s.takeTurn := by
  simp only [step, hturn, coreStep, takeTurn_selected, hsel]

/-! ## The invariant is kept -/

/-- The invariant speaks of these fields only. -/
theorem State.Inv.congr {s t : State} (h : s.Inv) (hparams : t.params = s.params) (himem : t.imem = s.imem)
    (hdmem : t.dmem = s.dmem) (hrc : t.rc = s.rc) (hpending : t.pending = s.pending) (h1 : t.tmr1 = s.tmr1)
    (h2 : t.tmr2 = s.tmr2) (hop : t.op = s.op) (houtputs : t.outputs = s.outputs) : t.Inv := by
  obtain ⟨hp, hi, hib, hd, hdb, ht1, ht2, hheld, hout⟩ := h
  constructor
  case held =>
    intro hlevel
    obtain ⟨hft1, hft2, hfe1, hfe2, hct1, hct2⟩ := hheld (hparams ▸ hlevel)
    constructor <;> simpa only [hrc, hpending, h1, h2]
  all_goals simpa only [hparams, himem, hdmem, h1, h2, hop, houtputs]

theorem State.Inv.counter {s : State} (h : s.Inv) (n : TimerId) : (s.counter n).toNat < 2 ^ s.params.timerBits := by
  cases n
  exacts [h.tmr1, h.tmr2]

/-- A counter may take any value below 2^TIMER_BITS, if the timer is not held at 0. -/
theorem setCounter_keeps_inv {s : State} (h : s.Inv) (n : TimerId) (v : Word)
    (hv : v.toNat < 2 ^ s.params.timerBits) (hfree : s.params.rstMode = .level → timerResetBit s.rc n = false) :
    (s.setCounter n v).Inv := by
  have hcounter : ∀ m, ((s.setCounter n v).counter m).toNat < 2 ^ s.params.timerBits := by
    intro m
    rw [counter_setCounter]
    split_ifs
    exacts [hv, h.counter m]
  have hheld : s.params.rstMode = .level → Held (s.setCounter n v) := by
    intro hlevel
    obtain ⟨hflag, htimer⟩ := (held_iff s).1 (h.held hlevel)
    rw [held_iff, setCounter_rc, setCounter_pending]
    refine ⟨hflag, fun m hm => ?_⟩
    rw [counter_setCounter, if_neg fun e => ?_]
    · exact htimer m hm
    · rw [e, hfree hlevel] at hm
      cases hm
  constructor
  case tmr1 => rw [setCounter_params]; exact hcounter .one
  case tmr2 => rw [setCounter_params]; exact hcounter .two
  case held => rw [setCounter_params]; exact hheld
  case params => rw [setCounter_params]; exact h.params
  case imemForm => rw [setCounter_imem]; exact h.imemForm
  case imemSpace => rw [setCounter_imem, setCounter_params]; exact h.imemSpace
  case dmemForm => rw [setCounter_dmem]; exact h.dmemForm
  case dmemSpace => rw [setCounter_dmem, setCounter_params]; exact h.dmemSpace
  case output => rw [setCounter_outputs, setCounter_op]; exact h.output

/-- An event leaves a flag that is held at 0 alone (rule R203). -/
theorem raiseFlag_keeps_inv {s : State} (h : s.Inv) (src : Source) (latch : Bool) : (s.raiseFlag src latch).Inv := by
  obtain ⟨hfree, -, hraise⟩ | hsame := raiseFlag_cases s src latch
  · rw [hraise]
    refine ⟨h.params, h.imemForm, h.imemSpace, h.dmemForm, h.dmemSpace, h.tmr1, h.tmr2, fun hlevel => ?_, h.output⟩
    have hlevel : s.params.rstMode = .level := hlevel
    obtain ⟨hflag, htimer⟩ := (held_iff s).1 (h.held hlevel)
    refine (held_iff _).2 ⟨fun q hq => ?_, fun n => by cases n; exacts [htimer .one, htimer .two]⟩
    rw [State.setPending_rc] at hq
    rw [State.setPending_pending, Pending.get_raise, if_neg fun e => ?_]
    · exact hflag q hq
    · simp [State.holdsFlag, hlevel, ← e, hq] at hfree
  · rwa [hsame]

theorem tick_keeps_inv {s : State} (h : s.Inv) (n : TimerId) (latch : Bool) : (s.tick n latch).Inv := by
  by_cases henabled : s.tickEnabled n = true
  · have hfree := ((tickEnabled_iff s n).1 henabled).2
    by_cases hperiod : s.counter n = s.timerWord (s.readReg (periodReg n))
    · rw [tick_at_period latch henabled hperiod]
      exact raiseFlag_keeps_inv (setCounter_keeps_inv h n 0 (Nat.two_pow_pos _) hfree) _ latch
    · rw [tick_before_period latch henabled hperiod]
      refine setCounter_keeps_inv h n _ ?_ hfree
      rw [timerWord_toNat s _ h.params.timer]
      exact Nat.mod_lt _ (Nat.two_pow_pos _)
  · rwa [tick_of_disabled latch henabled]

theorem applyEvent_keeps_inv {s : State} (h : s.Inv) (e : Event) : (s.applyEvent e).Inv := by
  cases e with
  | tick n latch => exact tick_keeps_inv h n latch
  | external n latch => exact raiseFlag_keeps_inv h _ latch

/-- A write of `rc` clears what the bits written hold at 0 (rules R204, R217). -/
theorem writeRc_held (s : State) (v : Word) : Held (s.writeRc v) := by
  rw [held_iff, writeRc_rc, writeRc_pending]
  refine ⟨fun q hq => ?_, fun n hn => ?_⟩
  · rw [Pending.get_clearedBy, hq, Bool.not_true, Bool.and_false]
  · rw [writeRc_counter, if_pos hn]

/-- A register write that is not the write of `rc` keeps what `level` holds. -/
theorem writeReg_held {s : State} (h : Held s) {rd : RegNum} (hrd : rd ≠ 59) (v : Word) : Held (s.writeReg rd v) := by
  obtain ⟨hflag, htimer⟩ := (held_iff s).1 h
  rw [held_iff, writeReg_rc_eq, writeReg_pending, if_neg hrd, if_neg hrd]
  refine ⟨hflag, fun n hn => ?_⟩
  rw [writeReg_counter, if_neg fun e => hrd e.1]
  exact htimer n hn

theorem writeReg_counter_le (s : State) (rd : RegNum) (v : Word) (n : TimerId) :
    ((s.writeReg rd v).counter n).toNat ≤ (s.counter n).toNat := by
  rw [writeReg_counter]
  split_ifs
  exacts [Nat.zero_le _, le_rfl]

theorem writeReg_keeps_inv {s : State} (h : s.Inv) (rd : RegNum) (v : Word) : (s.writeReg rd v).Inv := by
  obtain ⟨-, -, hdmem, himem, -, -, -, -, hparams⟩ := writeReg_frame s rd v
  constructor
  case params => rw [hparams]; exact h.params
  case imemForm => rw [himem]; exact h.imemForm
  case imemSpace => rw [himem, hparams]; exact h.imemSpace
  case dmemForm => rw [hdmem]; exact h.dmemForm
  case dmemSpace => rw [hdmem, hparams]; exact h.dmemSpace
  case tmr1 => rw [hparams]; exact (writeReg_counter_le s rd v .one).trans_lt (h.counter .one)
  case tmr2 => rw [hparams]; exact (writeReg_counter_le s rd v .two).trans_lt (h.counter .two)
  case held =>
    rw [hparams]
    intro hlevel
    by_cases hrd : rd = 59
    · rw [hrd, writeReg_rc]
      exact writeRc_held s v
    · exact writeReg_held (h.held hlevel) hrd v
  case output =>
    rw [(writeReg_registerWritten s rd v).outputs, writeReg_op_eq]
    split_ifs
    · intro x hx
      rw [List.getLast?_concat] at hx
      exact Option.some.inj hx
    · exact h.output

theorem completeAt_keeps_inv {s : State} (h : s.Inv) (a : Addr) : (s.completeAt a).Inv :=
  h.congr rfl rfl rfl rfl rfl rfl rfl rfl rfl

/-- A store within the data memory keeps its canonical form (rule R65). -/
theorem setDmem_write_keeps_inv {s : State} (h : s.Inv) {ea : Nat} (hea : ea < s.params.dmemWords) (v : Word) :
    (s.setDmem (s.dmem.write ea v)).Inv :=
  ⟨h.params, h.imemForm, h.imemSpace, Memory.write_wf _ _ _ h.dmemForm, Memory.write_below _ _ _ _ h.dmemSpace hea,
    h.tmr1, h.tmr2,
    fun hlevel => have hs := h.held hlevel; ⟨hs.t1, hs.t2, hs.e1, hs.e2, hs.tmr1, hs.tmr2⟩, h.output⟩

/-- The start of a run: no flag is up, both counters are 0 and nothing has been emitted. -/
theorem launch_inv {p : Params} {program data : Memory} (hp : ParamsOk p) (hprogram : program.wf = true)
    (hprogramSpace : program.below p.imemWords = true) (hdata : data.wf = true)
    (hdataSpace : data.below p.dmemWords = true) : (State.launch p program data).Inv :=
  ⟨hp, hprogram, hprogramSpace, hdata, hdataSpace, Nat.two_pow_pos _, Nat.two_pow_pos _,
    fun _ => ⟨fun _ => rfl, fun _ => rfl, fun _ => rfl, fun _ => rfl, fun _ => rfl, fun _ => rfl⟩, nofun⟩

/-! ## The statements -/

/-- Settles O46: by what the step did. -/
theorem everyStepKeepsTheInvariant : Obligations.EveryStepKeepsTheInvariant := by
  intro s t h hstep
  have hturn : s.takeTurn.Inv := h.congr rfl rfl rfl rfl rfl rfl rfl rfl rfl
  cases stepOutcome hstep with
  | event e _ hnext => exact hnext ▸ applyEvent_keeps_inv hturn e
  | entry src a _ _ _ hnext => exact hnext ▸ h.congr rfl rfl rfl rfl rfl rfl rfl rfl rfl
  | wrote rd v a _ hnext => exact hnext ▸ completeAt_keeps_inv (writeReg_keeps_inv hturn rd v) a
  | stored ea v hea hnext => exact hnext ▸ completeAt_keeps_inv (setDmem_write_keeps_inv hturn hea v) _
  | went a hnext => exact hnext ▸ completeAt_keeps_inv hturn a

/-- Settles O47: the defaults are within the bounds and the empty image is canonical. -/
theorem resetMeetsTheInvariant : Obligations.ResetMeetsTheInvariant :=
  ⟨fun _ _ _ => launch_inv, launch_inv ⟨le_rfl, le_rfl, le_rfl⟩ rfl rfl rfl rfl⟩

/-- Settles O48: every field is read off `State.launch`. -/
theorem resetState : Obligations.ResetState :=
  ⟨fun _ _ _ => ⟨rfl, rfl, rfl, rfl, rfl, rfl, rfl, rfl, rfl, rfl, rfl⟩, rfl, rfl, rfl, rfl⟩

/-- Settles O7: the core's turn with nothing selected is fetch, decode and execute. -/
theorem stepRunsTheDecodedInstruction : Obligations.StepRunsTheDecodedInstruction := by
  intro s w i hturn hsel hpc hread hdecode
  have hfetch : s.takeTurn.fetch = some w := fetch_eq_some.2 ⟨hpc, hread⟩
  refine ⟨?_, rfl⟩
  rw [step_of_unselected hturn hsel]
  simp only [fetchAndExecute, hfetch, hdecode]

/-- Settles O8: the fetch answers none, or the decoder refuses. -/
theorem stepRefusesWhatIsNoInstruction : Obligations.StepRefusesWhatIsNoInstruction := by
  intro s hturn hsel
  rw [step_of_unselected hturn hsel]
  refine ⟨fun hout => ?_, fun w why hpc hread hdecode => ?_⟩
  · have hfetch : s.takeTurn.fetch = none := fetch_eq_none.2 hout
    simp only [fetchAndExecute, hfetch]
  · have hfetch : s.takeTurn.fetch = some w := fetch_eq_some.2 ⟨hpc, hread⟩
    simp only [fetchAndExecute, hfetch, hdecode]

/-- Settles O9: by what the step did; no operation writes the two fields. -/
theorem programNeverChanges : Obligations.ProgramNeverChanges := by
  intro s t hstep
  cases stepOutcome hstep with
  | event e _ hnext =>
    have hsame := applyEvent_sameToCore s.takeTurn e
    exact hnext ▸ ⟨hsame.imem, hsame.params⟩
  | wrote rd v a _ hnext =>
    obtain ⟨-, -, -, himem, -, -, -, -, hparams⟩ := writeReg_frame s.takeTurn rd v
    exact hnext ▸ ⟨himem, hparams⟩
  | entry _ _ _ _ _ hnext | stored _ _ _ hnext | went _ hnext => exact hnext ▸ ⟨rfl, rfl⟩

/-- Settles O11: by what the step did; a write reaches its destination and, if that is `rc`, the counters. -/
theorem registersChangeOnlyAsDestinations : Obligations.RegistersChangeOnlyAsDestinations := by
  intro s t r hstep hw hchanged
  have hne : ∀ k : RegNum, 60 ≤ k.toNat → r ≠ k := fun k hk e => by have := hw.2; rw [e] at this; omega
  have h60 := hne 60 (by decide)
  have h61 := hne 61 (by decide)
  have h62 := hne 62 (by decide)
  cases stepOutcome hstep with
  | event e _ hnext => exact absurd (hnext ▸ readReg_applyEvent s.takeTurn e r h60 h61) hchanged
  | entry src a _ _ _ hnext =>
    exact absurd (hnext ▸ readReg_entered s.takeTurn a r (hne 63 (by decide))) hchanged
  | wrote rd v a hran hnext =>
    by_cases hrd : r = rd
    · exact hrd ▸ hran
    · have hregister := (writeReg_completeAt_writes s.takeTurn rd v a).register
      exact absurd (hnext ▸ hregister.others r hrd h62 fun _ => ⟨h60, h61⟩) hchanged
  | stored ea v hea hnext =>
    exact absurd (hnext ▸ (store_completeAt_stores s.takeTurn ea v).register.registers r h62) hchanged
  | went a hnext => exact absurd (hnext ▸ completeAt_readReg s.takeTurn a r h62) hchanged

/-- Settles O43: by what the step did; `op` is written by `State.emitOp` alone. -/
theorem outputEventsAreTheWritesOfOp : Obligations.OutputEventsAreTheWritesOfOp := by
  intro s t hstep
  refine ⟨fun hran => ?_, fun hnot => ?_⟩
  · obtain ⟨v, a, rfl⟩ := hran.next
    rfl
  · cases stepOutcome hstep with
    | event e _ hnext =>
      obtain ⟨v, w, p, he⟩ := applyEvent_eq s.takeTurn e
      rw [hnext, he]
      exact ⟨rfl, rfl⟩
    | wrote rd v a hran hnext =>
      have hrd : rd ≠ 58 := fun e => hnot (e ▸ hran)
      have houtputs := (writeReg_registerWritten s.takeTurn rd v).outputs
      have hop := writeReg_op_eq s.takeTurn rd v
      rw [if_neg hrd] at houtputs hop
      exact hnext ▸ ⟨houtputs, hop⟩
    | entry _ _ _ _ _ hnext | stored _ _ _ hnext | went _ hnext => exact hnext ▸ ⟨rfl, rfl⟩

end Sys2Proof.Machine

/-! PROOFS. The statements about interrupts, timers and external lines (`spec/60_exceptions.md`): the selection, the
entry, how long service lasts, the flags, the return idiom, and the events of the environment. -/

namespace Sys2Proof.Machine

open Sys2Proof Sys2Proof.Config

/-! ## The selection -/

theorem asks_iff (s : State) (src : Source) :
    s.asks src = true ↔ s.pending.get src = true ∧ s.rc.getLsbD (resetBitNumber src + 4) = true := by
  rw [State.asks, Bool.and_eq_true, intEnableBit_eq]

theorem selected_of_ins {s : State} (h : s.ins = true) : s.selected = none := by
  rw [Option.eq_none_iff_forall_ne_some]
  intro src hsel
  have := (selected_eq_some hsel).1
  rw [h] at this
  cases this

/-- Something is selected exactly when the request is up (rules R205, R206). -/
theorem selected_ne_none_iff (s : State) : s.selected ≠ none ↔ s.intReq = true := by
  rw [intReq_eq_true_iff, Option.ne_none_iff_exists']
  constructor
  · rintro ⟨src, h⟩
    have hsel := selected_eq_some h
    exact ⟨hsel.1, src, hsel.2⟩
  · rintro ⟨hins, src, hasks⟩
    by_contra hnone
    rcases selected_eq_none (Option.eq_none_iff_forall_ne_some.2 fun q hq => hnone ⟨q, hq⟩) with h | h
    · rw [hins] at h; cases h
    · rw [h src] at hasks; cases hasks

/-- The first of `l ++ m` with a property stands no later in `l` than any other with it. -/
theorem idxOf_le_of_find?_append {α : Type} [DecidableEq α] {p : α → Bool} {a q : α} (l m : List α)
    (h : (l ++ m).find? p = some a) (hq : p q = true) : l.idxOf a ≤ l.idxOf q := by
  have ha := List.find?_some h
  induction l with
  | nil => exact le_rfl
  | cons x l ih =>
    rw [List.cons_append] at h
    by_cases hx : p x = true
    · rw [List.find?_cons_of_pos hx, Option.some.injEq] at h
      rw [h, List.idxOf_cons_self]
      exact Nat.zero_le _
    · rw [List.find?_cons_of_neg hx] at h
      have hxa : x ≠ a := fun e => hx (e ▸ ha)
      have hxq : x ≠ q := fun e => hx (e ▸ hq)
      rw [List.idxOf_cons_ne _ hxa, List.idxOf_cons_ne _ hxq]
      exact Nat.succ_le_succ (ih h)

/-- Settles O33: the selected source is the first in the service order that asks. -/
theorem selectionFollowsRequestAndPriority : Obligations.SelectionFollowsRequestAndPriority := by
  intro s up
  have hup : s.intReq = true ↔ up := by
    rw [intReq_eq_true_iff]
    simp only [asks_iff]
    refine and_congr_right fun _ => ⟨?_, ?_⟩
    · rintro ⟨src, h⟩
      cases src
      exacts [.inl h, .inr (.inl h), .inr (.inr (.inl h)), .inr (.inr (.inr h))]
    · rintro (h | h | h | h)
      exacts [⟨.t1, h⟩, ⟨.t2, h⟩, ⟨.e1, h⟩, ⟨.e2, h⟩]
  refine ⟨hup, (selected_ne_none_iff s).trans hup, fun src hsel => ?_⟩
  have hasks := (asks_iff s src).1 (selected_eq_some hsel).2
  refine ⟨hasks.1, hasks.2, fun q hq hen => ?_⟩
  have hreq := (selected_ne_none_iff s).1 (by rw [hsel]; nofun)
  rw [State.selected, if_pos hreq] at hsel
  exact idxOf_le_of_find?_append _ _ hsel ((asks_iff s q).2 ⟨hq, hen⟩)

/-! ## The entry -/

/-- Settles O34: the step is the entry, which writes `ipc`, `INS` and `pc`. -/
theorem interruptEntryResult : Obligations.InterruptEntryResult := by
  intro s src hturn hsel haddr
  rw [← vectorReg_eq] at haddr ⊢
  have hsome : addrOf (s.takeTurn.readReg (vectorReg src)) = some ((s.readReg (vectorReg src)).setWidth 16) :=
    addrOf_eq_some.2 ⟨haddr, rfl⟩
  refine ⟨s.takeTurn.entered ((s.readReg (vectorReg src)).setWidth 16), ?_, rfl, rfl, ?_,
    fun r hr => readReg_entered s.takeTurn _ r hr, ?_, rfl, fun _ => rfl, rfl, rfl, rfl, selected_of_ins rfl⟩
  · rw [step_of_selected hturn hsel, enterInterrupt, hsome]
    rfl
  · exact BitVec.eq_of_toNat_eq (by simp [State.entered])
  · rw [readReg_ipc]
    exact BitVec.eq_of_toNat_eq (by simp [State.entered])

/-- Settles O35: the step is the entry, and no address is taken from such a register. -/
theorem interruptEntryRefusesWideAddress : Obligations.InterruptEntryRefusesWideAddress := by
  intro s src hturn hsel haddr
  rw [← vectorReg_eq] at haddr
  have hnone : addrOf (s.takeTurn.readReg (vectorReg src)) = none := addrOf_eq_none.2 haddr
  rw [step_of_selected hturn hsel, enterInterrupt, hnone]

/-- Settles O36: in service the step is an event or an instruction, and only a write of `rc` reaches `INS`. -/
theorem serviceLastsUntilAFlagIsReset : Obligations.ServiceLastsUntilAFlagIsReset := by
  intro s t hins hstep
  have hsel : s.selected = none := selected_of_ins hins
  have hends : RanWriting 59 s t → t.rc.extractLsb' 0 4 ≠ 0#4 → t.ins = false := by
    intro hran hbits
    obtain ⟨v, a, rfl⟩ := hran.next
    rw [completeAt_rc, writeReg_rc_eq, if_pos rfl] at hbits
    rw [completeAt_ins, writeReg_ins, if_pos rfl, decide_eq_false hbits, Bool.and_false]
  have hstays : t.ins = s.ins → ¬t.ins = false := fun h => by rw [h, hins]; nofun
  refine ⟨hsel, ?_, fun hended => ?_, fun h => hends h.1 h.2⟩
  · cases stepOutcome hstep with
    | event e _ hnext =>
      obtain ⟨v, w, p, he⟩ := applyEvent_eq s.takeTurn e
      rw [hnext, he]
      rfl
    | entry src _ _ hsome => rw [hsel] at hsome; cases hsome
    | wrote rd v a _ hnext => exact hnext ▸ writeReg_ipc s.takeTurn rd v
    | stored _ _ _ hnext | went _ hnext => exact hnext ▸ rfl
  · cases stepOutcome hstep with
    | event e _ hnext => exact absurd hended (hstays (hnext ▸ (applyEvent_sameToCore s.takeTurn e).ins))
    | entry src _ _ hsome => rw [hsel] at hsome; cases hsome
    | wrote rd v a hran hnext =>
      rw [hnext, completeAt_ins, writeReg_ins] at hended
      split_ifs at hended with hrd
      · refine ⟨hrd ▸ hran, ?_⟩
        rw [State.takeTurn_ins, hins, Bool.true_and, decide_eq_false_iff_not] at hended
        rwa [hnext, completeAt_rc, writeReg_rc_eq, if_pos hrd]
      · rw [State.takeTurn_ins, hins] at hended
        cases hended
    | stored _ _ _ hnext | went _ hnext => exact absurd hended (hstays (hnext ▸ rfl))

/-- Settles O37: by what the step did; `ipc` is written by the entry alone. -/
theorem savedPcChangesOnlyAtEntry : Obligations.SavedPcChangesOnlyAtEntry := by
  intro s t hstep hchanged
  cases stepOutcome hstep with
  | event e _ hnext =>
    obtain ⟨v, w, p, he⟩ := applyEvent_eq s.takeTurn e
    rw [hnext, he] at hchanged
    exact absurd rfl hchanged
  | entry src a hturn hsel _ hnext =>
    exact hnext ▸ ⟨hturn, by rw [hsel]; nofun, (selected_eq_some hsel).1, rfl, rfl⟩
  | wrote rd v a _ hnext => exact absurd (hnext ▸ writeReg_ipc s.takeTurn rd v) hchanged
  | stored _ _ _ hnext | went _ hnext => exact absurd (hnext ▸ rfl) hchanged

/-! ## The flags -/

/-- An instruction that writes the register `rd` can only clear flags, those a write of `rc` names. -/
theorem writeReg_get (s : State) (rd : RegNum) (v : Word) (q : Source) :
    (s.writeReg rd v).pending.get q = (s.pending.get q && !(decide (rd = 59) && v.getLsbD (resetBitNumber q))) := by
  rw [writeReg_pending]
  split_ifs with h
  · rw [Pending.get_clearedBy, flagResetBit_eq, decide_eq_true h, Bool.true_and]
  · rw [decide_eq_false h, Bool.false_and, Bool.not_false, Bool.and_true]

/-- Settles O38: by what the step did. -/
theorem flagsRiseByEventsAndFallByResets : Obligations.FlagsRiseByEventsAndFallByResets := by
  intro s t hstep src
  refine ⟨fun hlow hhigh => ?_, fun hhigh hlow => ?_, fun hran hbit => ?_⟩
  · have hno : t.pending.get src ≠ s.pending.get src := by rw [hlow, hhigh]; nofun
    cases stepOutcome hstep with
    | event e hturn hnext =>
      refine ⟨e, hturn, by_contra fun hne => hno ?_⟩
      exact hnext ▸ applyEvent_get_other s.takeTurn e (Ne.symm hne)
    | wrote rd v a _ hnext =>
      rw [hnext, completeAt_pending, writeReg_get, State.takeTurn_pending, hlow, Bool.false_and] at hhigh
      cases hhigh
    | entry _ _ _ _ _ hnext | stored _ _ _ hnext | went _ hnext => exact absurd (hnext ▸ rfl) hno
  · have hno : t.pending.get src ≠ s.pending.get src := by rw [hlow, hhigh]; nofun
    cases stepOutcome hstep with
    | event e hturn hnext =>
      rw [hnext, applyEvent_get_mono s.takeTurn e src hhigh] at hlow
      cases hlow
    | wrote rd v a hran hnext =>
      rw [hnext, completeAt_pending, writeReg_get, State.takeTurn_pending, hhigh, Bool.true_and, Bool.not_eq_false',
        Bool.and_eq_true, decide_eq_true_eq] at hlow
      obtain ⟨hrd, hbit⟩ := hlow
      refine ⟨hrd ▸ hran, ?_⟩
      rwa [hnext, completeAt_rc, writeReg_rc_eq, if_pos hrd]
    | entry _ _ _ _ _ hnext | stored _ _ _ hnext | went _ hnext => exact absurd (hnext ▸ rfl) hno
  · obtain ⟨v, a, rfl⟩ := hran.next
    rw [completeAt_rc, writeReg_rc_eq, if_pos rfl] at hbit
    rw [completeAt_pending, writeReg_get, hbit, decide_eq_true rfl, Bool.and_self, Bool.not_true, Bool.and_false]

/-! ## The return idiom -/

/-- The immediate of an instruction as a number modulo 2^32 (rule R88). -/
theorem signedImm_eq_ofInt (k : Imm) : signedImm k = BitVec.ofInt 32 k.toInt := rfl

theorem signedImm_getLsbD_low (k : Imm) {i : Nat} (h : i < 16) : (signedImm k).getLsbD i = k.getLsbD i := by
  have h32 : i < 32 := by omega
  rw [signedImm, BitVec.getLsbD_signExtend, if_pos h, decide_eq_true h32, Bool.true_and]

theorem signedImm_lowBits (k : Imm) : (signedImm k).extractLsb' 0 4 = k.extractLsb' 0 4 := by
  apply BitVec.eq_of_getLsbD_eq
  intro i hi
  rw [BitVec.getLsbD_extractLsb', BitVec.getLsbD_extractLsb', signedImm_getLsbD_low k (by omega)]

/-- Settles O39: `ipc` holds the interrupted `pc`, so the jump goes back there; the rest is the write of `rc`. -/
theorem entryThenReturnResumes : Obligations.EntryThenReturnResumes := by
  intro s t src k hentry
  obtain ⟨a, -, rfl⟩ := enterInterrupt_eq_next hentry
  have hback : addrOf ((s.entered a).readReg 63) = some s.pc := by
    rw [readReg_ipc, addrOf_eq_some]
    have hpc := s.pc.isLt
    refine ⟨?_, BitVec.eq_of_toNat_eq ?_⟩ <;> simp [State.entered]
    omega
  have hwrites := writeReg_completeAt_writes (s.entered a) 59 (signedImm k) s.pc
  refine ⟨((s.entered a).writeReg 59 (signedImm k)).completeAt s.pc, ?_, rfl, ?_, fun r hr => ?_, hwrites.data, ?_,
    ?_, fun q => ?_⟩
  · simp only [exec, execJriw, hback]
  · rw [completeAt_rc, writeReg_rc_eq, if_pos rfl, signedImm_eq_ofInt]
  · have hne : ∀ q : RegNum, 59 ≤ q.toNat → r ≠ q := fun q hq e => by rw [e] at hr; omega
    rw [hwrites.register.others r (hne _ (by decide)) (hne _ (by decide))
      fun _ => ⟨hne _ (by decide), hne _ (by decide)⟩]
    exact readReg_entered s a r (hne _ (by decide))
  · rw [hwrites.register.outputs]
    rfl
  · rw [completeAt_ins, writeReg_ins, if_pos rfl, signedImm_lowBits]
    rfl
  · rw [completeAt_pending, writeReg_get, decide_eq_true rfl, Bool.true_and,
      signedImm_getLsbD_low k (by cases q <;> decide)]
    rfl

/-! ## Timers and external lines -/

/-- The flag of a tick's source follows rule R203 after the counter has restarted. -/
theorem flagAfterEvent_setCounter (s : State) (n : TimerId) (v : Word) (src : Source) (latch : Bool) :
    flagAfterEvent (s.setCounter n v) src latch = flagAfterEvent s src latch := by
  cases n <;> rfl

/-- What an enabled tick does to its own counter and flag (rule R216). -/
theorem tick_own {s : State} {n : TimerId} (latch : Bool) (hbits : s.params.timerBits ≤ 32)
    (h : s.tickEnabled n = true) :
    if (s.counter n).toNat = (s.readReg (periodReg n)).toNat % 2 ^ s.params.timerBits then
      (s.tick n latch).counter n = 0 ∧
        (s.tick n latch).pending.get (timerSource n) = flagAfterEvent s (timerSource n) latch
    else
      ((s.tick n latch).counter n).toNat = ((s.counter n).toNat + 1) % 2 ^ s.params.timerBits ∧
        (s.tick n latch).pending.get (timerSource n) = s.pending.get (timerSource n) := by
  have hiff : (s.counter n).toNat = (s.readReg (periodReg n)).toNat % 2 ^ s.params.timerBits ↔
      s.counter n = s.timerWord (s.readReg (periodReg n)) := by
    rw [← timerWord_toNat s _ hbits, BitVec.toNat_inj]
  split_ifs with h'
  · have hperiod := hiff.1 h'
    rw [tick_at_period latch h hperiod, raiseFlag_counter, counter_setCounter, if_pos rfl, raiseFlag_get_same,
      flagAfterEvent_setCounter]
    exact ⟨rfl, rfl⟩
  · have hperiod := fun e => h' (hiff.2 e)
    rw [tick_before_period latch h hperiod, counter_setCounter, if_pos rfl, setCounter_pending,
      timerWord_toNat s _ hbits, BitVec.toNat_add]
    exact ⟨Nat.mod_mod_of_dvd _ (Nat.pow_dvd_pow 2 hbits), rfl⟩

theorem tick_counter_other (s : State) {n m : TimerId} (latch : Bool) (hm : m ≠ n) :
    (s.tick n latch).counter m = s.counter m := by
  unfold State.tick
  split_ifs
  · rw [raiseFlag_counter, counter_setCounter, if_neg hm]
  · rw [counter_setCounter, if_neg hm]
  · rfl

/-- Settles O40: for each timer, its own counter and flag are `tick_own`; the rest is the frame of an event. -/
theorem timerTickResult : Obligations.TimerTickResult := by
  intro s n latch bit period src other hturn hbits hrun hfree
  have hsame := applyEvent_sameToCore s.takeTurn (.tick n latch)
  have hschedule := applyEvent_schedule s.takeTurn (.tick n latch)
  refine ⟨s.takeTurn.tick n latch, step_of_event hturn, ⟨hsame.registers, hsame.pc, hsame.ins, hsame.data, hsame.imem,
    hsame.outputs, hsame.params⟩, hschedule, ?_⟩
  have henabled : s.takeTurn.tickEnabled n = true := by
    rw [tickEnabled_iff]
    cases n <;> exact ⟨hrun, hfree⟩
  have hown := tick_own (s := s.takeTurn) latch hbits henabled
  cases n with
  | one => exact ⟨tick_counter_other _ latch nofun, fun q hq => tick_get_other _ .one latch hq, hown⟩
  | two => exact ⟨tick_counter_other _ latch nofun, fun q hq => tick_get_other _ .two latch hq, hown⟩

/-- Settles O41: such a tick is not enabled, so it does not happen. -/
theorem stoppedTimerKeepsItsCount : Obligations.StoppedTimerKeepsItsCount := by
  intro s n latch bit hturn hstopped
  have hdisabled : ¬s.takeTurn.tickEnabled n = true := by
    rw [tickEnabled_iff]
    rintro ⟨hrun, hfree⟩
    rcases hstopped with hoff | ⟨hlevel, hheld⟩
    · cases n <;> exact absurd hrun (by rw [Bool.not_eq_true]; exact hoff)
    · cases n <;> exact absurd hheld (by rw [Bool.not_eq_true]; exact hfree hlevel)
  rw [step_of_event hturn, State.applyEvent, tick_of_disabled latch hdisabled]

/-- Settles O42: the line's flag is `raiseFlag_get_same`; the rest is the frame of an event. -/
theorem externalEventResult : Obligations.ExternalEventResult := by
  intro s n latch src hturn
  have hsame := applyEvent_sameToCore s.takeTurn (.external n latch)
  have hsrc : src = lineSource n := by cases n <;> rfl
  have hschedule := applyEvent_schedule s.takeTurn (.external n latch)
  rw [hsrc]
  exact ⟨s.takeTurn.raiseFlag (lineSource n) latch, step_of_event hturn, ⟨hsame.registers, hsame.pc, hsame.ins,
    hsame.data, hsame.imem, hsame.outputs, hsame.params⟩, hschedule, raiseFlag_counter .., raiseFlag_counter ..,
    raiseFlag_get_same .., fun q hq => raiseFlag_get_other _ _ latch hq⟩

end Sys2Proof.Machine

/-! PROOFS. The statements about the results of single instructions (`spec/40_alu_register.md` to
`spec/45_control_transfer.md`). What an instruction leaves alone is said once by `writeResult_next`, `transferTo_next`,
`writeReg_completeAt_writes` and `store_completeAt_stores`; here stands what each computes. -/

namespace Sys2Proof.Machine

open Sys2Proof Sys2Proof.Config

/-! ## The end of an instruction, with its result in another form -/

section
variable {i : Instr} {s : State} {rd : RegNum} {v w : Word} {a b : Addr}

theorem writes_of_exec (h : exec i s = writeResult rd w s) (hv : w = v) :
    ∃ t, exec i s = .next t ∧ Writes rd v (s.pc + 1) s t := by
  rw [h, hv]
  exact writeResult_next rd v s

/-- The same, with what is known of the value instead of the value. -/
theorem writes_such_that {P : Word → Prop} (h : exec i s = writeResult rd w s) (hw : P w) :
    ∃ t v, exec i s = .next t ∧ Writes rd v (s.pc + 1) s t ∧ P v := by
  obtain ⟨t, ht, hwrites⟩ := writes_of_exec h rfl
  exact ⟨t, w, ht, hwrites, hw⟩

theorem goesTo_of_exec (h : exec i s = transferTo a s) (ha : a = b) : ∃ t, exec i s = .next t ∧ GoesTo b s t := by
  rw [h, ha]
  exact transferTo_next b s

end

/-! ## The ALU -/

theorem alu_add (a b : Word) : alu .add a b = BitVec.ofNat 32 (a.toNat + b.toNat) := by
  rw [BitVec.ofNat_add, BitVec.ofNat_toNat, BitVec.ofNat_toNat, BitVec.setWidth_eq, BitVec.setWidth_eq, alu]

/-- The wrapped difference as a natural number. -/
theorem alu_sub_toNat (a b : Word) : (alu .sub a b).toNat = (a.toNat + 2 ^ 32 - b.toNat) % 2 ^ 32 := by
  have hb := b.isLt
  rw [alu, BitVec.toNat_sub]
  congr 1
  omega

theorem alu_sub (a b : Word) : alu .sub a b = BitVec.ofInt 32 (a.toNat - b.toNat) := by
  have ha := a.isLt
  have hb := b.isLt
  apply BitVec.eq_of_toNat_eq
  rw [alu_sub_toNat, BitVec.toNat_ofInt]
  omega

/-- Settles O14: `inc` adds the constant 1 and `neg` subtracts from the constant 0. -/
theorem registerArithmeticResults : Obligations.RegisterArithmeticResults := by
  intro rd rs rt s
  refine ⟨⟨rfl, writes_of_exec rfl (alu_add _ _)⟩, ⟨rfl, writes_of_exec rfl (alu_sub _ _)⟩,
    ⟨rfl, writes_of_exec rfl (alu_add _ 1)⟩, writes_of_exec rfl ((alu_sub _ _).trans ?_)⟩
  simp only [BitVec.ofNat_eq_ofNat, BitVec.toNat_ofNat, Nat.zero_mod, Int.natCast_zero, Int.zero_sub]

/-- Settles O15: bit by bit. -/
theorem registerLogicResults : Obligations.RegisterLogicResults := by
  intro rd rs rt s
  refine ⟨⟨rfl, writes_such_that rfl fun k _ => BitVec.getLsbD_and⟩,
    ⟨rfl, writes_such_that rfl fun k _ => BitVec.getLsbD_or⟩, ⟨rfl, writes_such_that rfl fun k _ => ?_⟩,
    ⟨rfl, writes_such_that rfl fun k hk => ?_⟩, ⟨rfl, writes_such_that rfl fun k hk => ?_⟩⟩
  · exact BitVec.getLsbD_xor
  · rw [alu, BitVec.getLsbD_not, BitVec.getLsbD_and, decide_eq_true hk, Bool.true_and]
  · rw [alu, BitVec.getLsbD_not, BitVec.getLsbD_or, decide_eq_true hk, Bool.true_and]

/-! ## Multiply and divide -/

theorem lowHalf_toNat (x : Word) : (lowHalf x).toNat = x.toNat % 65536 := BitVec.toNat_setWidth ..

theorem lowByte_toNat (x : Word) : (lowByte x).toNat = x.toNat % 256 := by
  rw [lowByte, BitVec.toNat_setWidth, BitVec.toNat_setWidth]
  omega

theorem multiplier_eq (a b : BitVec 16) : multiplier a b = BitVec.ofNat 32 (a.toNat * b.toNat) := rfl

/-- The divider's result as one number, for a divisor other than 0 (rule R131, decision D14). -/
theorem divider_eq {a b : BitVec 16} (h : b.toNat ≠ 0) :
    divider a b = BitVec.ofNat 32 (a.toNat / b.toNat * 65536 + a.toNat % b.toNat) := by
  have hb : b ≠ 0 := fun e => h (by rw [e]; rfl)
  rw [← divider_toNat a b hb, BitVec.ofNat_toNat, BitVec.setWidth_eq]

theorem divider_zero {a b : BitVec 16} (h : b.toNat = 0) : divider a b = div0 a :=
  if_pos (BitVec.eq_of_toNat_eq h)

/-- Settles O16: the operands are the low parts of the registers as numbers. -/
theorem multiplyResults : Obligations.MultiplyResults := by
  intro rd rs rt imm s
  refine ⟨writes_of_exec rfl ?_, writes_of_exec rfl ?_⟩
  · rw [multiplier_eq, lowByte_toNat, lowByte_toNat]
  · rw [multiplier_eq, lowHalf_toNat]

/-- Settles O17: by whether the divisor is 0, for either source of the divisor. -/
theorem divideResults : Obligations.DivideResults := by
  intro rd rs rt imm s a b
  have ha : (lowHalf (s.readReg rs)).toNat = a := lowHalf_toNat _
  have hb : (lowHalf (s.readReg rt)).toNat = b := lowHalf_toNat _
  have hdividend : lowHalf (s.readReg rs) = BitVec.ofNat 16 a := by
    rw [← ha, BitVec.ofNat_toNat, BitVec.setWidth_eq]
  refine ⟨fun h => writes_of_exec rfl ?_, fun h => writes_of_exec rfl ?_, fun h => writes_of_exec rfl ?_,
    fun h => writes_of_exec rfl ?_⟩
  · rw [divider_eq (by rwa [hb]), ha, hb]
  · rw [divider_zero (by rwa [hb]), hdividend]
  · rw [divider_eq h, ha]
  · rw [divider_zero h, hdividend]

/-- The `n + 1` low bits of a number are its `n` low bits and bit `n`. -/
theorem mod_two_pow_succ (x n : Nat) : x % 2 ^ (n + 1) = x % 2 ^ n + 2 ^ n * (x.testBit n).toNat := by
  rw [Nat.mod_pow_succ, Nat.toNat_testBit]

/-- `n` rows of the array multiply by the `n` low bits of the other operand (rule R130). -/
theorem arrayMultiply_eq (n a b : Nat) : arrayMultiply n a b = a * (b % 2 ^ n) := by
  induction n with
  | zero => rw [arrayMultiply, Nat.pow_zero, Nat.mod_one, Nat.mul_zero]
  | succ n ih =>
    rw [arrayMultiply, ih, mod_two_pow_succ, Nat.shiftLeft_eq]
    cases b.testBit n <;> simp only [Bool.toNat_false, Bool.toNat_true, if_true, if_false, Bool.false_eq_true] <;> ring

/-- Settles O18: sixteen rows take in all bits of the operand. -/
theorem arrayMultiplierRefinesMultiplier : Obligations.ArrayMultiplierRefinesMultiplier := by
  intro a b
  rw [multiplier_toNat, arrayMultiply_eq, Nat.mod_eq_of_lt b.isLt]

/-- One stage keeps the division equation: the quotient and the remainder of twice the dividend and a bit. -/
theorem divStage_eq (b bit d : Nat) (hb : 0 < b) (hbit : bit ≤ 1) :
    divStage b bit (d / b, d % b) = ((2 * d + bit) / b, (2 * d + bit) % b) := by
  have hd := Nat.div_add_mod d b
  have hr := Nat.mod_lt d hb
  have hsplit : 2 * d + bit = b * (2 * (d / b)) + (2 * (d % b) + bit) := by rw [← Nat.mul_left_comm]; omega
  rw [hsplit, Nat.mul_add_div hb, Nat.mul_add_mod]
  simp only [divStage]
  split_ifs with h
  · have hlt : 2 * (d % b) + bit - b < b := by omega
    have hsub : 2 * (d % b) + bit = b * 1 + (2 * (d % b) + bit - b) := by omega
    rw [hsub, Nat.mul_add_div hb, Nat.mul_add_mod, Nat.div_eq_of_lt hlt, Nat.mod_eq_of_lt hlt, ← hsub]
  · have hlt : 2 * (d % b) + bit < b := by omega
    rw [Nat.div_eq_of_lt hlt, Nat.mod_eq_of_lt hlt, Nat.add_zero]

/-- `n` stages take in the `n` low bits of the dividend (rule R137). -/
theorem restoringDivide_eq (n a b d : Nat) (hb : 0 < b) :
    restoringDivide n a b (d / b, d % b) =
      ((d * 2 ^ n + a % 2 ^ n) / b, (d * 2 ^ n + a % 2 ^ n) % b) := by
  induction n generalizing d with
  | zero => rw [restoringDivide, Nat.pow_zero, Nat.mod_one, Nat.mul_one, Nat.add_zero]
  | succ n ih =>
    have hbit : (a.testBit n).toNat ≤ 1 := Bool.toNat_le _
    have hnext : (2 * d + (a.testBit n).toNat) * 2 ^ n + a % 2 ^ n = d * 2 ^ (n + 1) + a % 2 ^ (n + 1) := by
      rw [mod_two_pow_succ, Nat.pow_succ]
      ring
    rw [restoringDivide, divStage_eq b _ d hb hbit, ih, hnext]

/-- Settles O19: sixteen stages from quotient and remainder 0 take in the whole dividend. -/
theorem restoringDividerRefinesDivider : Obligations.RestoringDividerRefinesDivider := by
  intro a b h
  have hb : 0 < b.toNat := Nat.pos_of_ne_zero fun e => h (BitVec.eq_of_toNat_eq e)
  have hstages := restoringDivide_eq 16 a.toNat b.toNat 0 hb
  rw [Nat.zero_div, Nat.zero_mod, Nat.zero_mul, Nat.zero_add, Nat.mod_eq_of_lt a.isLt] at hstages
  rw [divider_toNat a b h, hstages]

/-! ## Shifts and rotate -/

theorem rotateLeft_toNat (x : Word) {n : Nat} (h : n < 32) :
    (x.rotateLeft n).toNat = x.toNat * 2 ^ n % 2 ^ 32 + x.toNat / 2 ^ (32 - n) := by
  have hx := x.isLt
  have hhigh : x.toNat / 2 ^ (32 - n) < 2 ^ n := by
    rw [Nat.div_lt_iff_lt_mul (Nat.two_pow_pos _), ← Nat.pow_add, Nat.add_sub_cancel' h.le]
    exact hx
  have hlow : x.toNat * 2 ^ n % 2 ^ 32 = x.toNat % 2 ^ (32 - n) * 2 ^ n := by
    rw [← Nat.mul_mod_mul_right, ← Nat.pow_add, Nat.sub_add_cancel h.le]
  rw [BitVec.toNat_rotateLeft, Nat.mod_eq_of_lt h, Nat.shiftLeft_eq, Nat.shiftRight_eq_div_pow, hlow,
    ← Nat.shiftLeft_eq, Nat.shiftLeft_add_eq_or_of_lt hhigh]

/-- Settles O20: each shift as multiplication or division by a power of two. -/
theorem shiftResults : Obligations.ShiftResults := by
  intro rd rt n s
  have hn : n.toNat < 32 := n.isLt.trans (by decide)
  refine ⟨writes_such_that rfl (rotateLeft_toNat _ hn), writes_such_that rfl ?_, writes_such_that rfl ?_,
    writes_such_that rfl ?_⟩
  · rw [shifter, BitVec.toNat_shiftLeft, Nat.shiftLeft_eq]
  · rw [shifter, BitVec.toNat_ushiftRight, Nat.shiftRight_eq_div_pow]
  · rw [shifter, BitVec.toInt_sshiftRight, Int.shiftRight_eq_div_pow]
    rfl

/-! ## Immediate arithmetic and logic -/

/-- Bit 15 of an immediate stands for every bit above it (rule R88, decision D7). -/
theorem signedImm_getLsbD (imm : Imm) {k : Nat} (h : k < 32) : (signedImm imm).getLsbD k = imm.getLsbD (min k 15) := by
  by_cases hk : k < 16
  · rw [signedImm_getLsbD_low imm hk, Nat.min_eq_left (by omega)]
  · rw [signedImm, BitVec.getLsbD_signExtend, if_neg hk, decide_eq_true h, Bool.true_and, BitVec.msb_eq_getLsbD_last,
      Nat.min_eq_right (by omega)]

/-- Adding an immediate adds it as a two's complement number, modulo 2^32 (decisions D7, D8). -/
theorem add_signedImm (x : Word) (imm : Imm) : x + signedImm imm = BitVec.ofInt 32 (x.toInt + imm.toInt) := by
  rw [BitVec.ofInt_add, BitVec.ofInt_toInt, ← signedImm_eq_ofInt]

/-- Settles O21: by `add_signedImm`. -/
theorem addImmediateResult : Obligations.AddImmediateResult :=
  fun _ _ imm _ => writes_of_exec rfl (add_signedImm _ imm)

/-- Settles O22: bit by bit, the immediate's bits by `signedImm_getLsbD`. -/
theorem logicImmediateResults : Obligations.LogicImmediateResults := by
  intro rd rs imm s
  refine ⟨writes_such_that rfl fun k hk => ?_, writes_such_that rfl fun k hk => ?_,
    writes_such_that rfl fun k hk => ?_, writes_such_that rfl fun k hk => ?_, writes_such_that rfl fun k hk => ?_⟩ <;>
    rw [← signedImm_getLsbD imm hk, alu]
  · exact BitVec.getLsbD_and
  · exact BitVec.getLsbD_or
  · exact BitVec.getLsbD_xor
  · rw [BitVec.getLsbD_not, BitVec.getLsbD_and, decide_eq_true hk, Bool.true_and]
  · rw [BitVec.getLsbD_not, BitVec.getLsbD_or, decide_eq_true hk, Bool.true_and]

/-- A sign-extended half, moved up by 15 and by one place, fills the high half (rules R150, R152, R167). -/
theorem signedImm_shifted_toNat (x : Imm) : (signedImm x <<< 15 <<< 1).toNat = x.toNat * 65536 := by
  have hx := x.isLt
  rw [BitVec.toNat_shiftLeft, BitVec.toNat_shiftLeft, signedImm, BitVec.toNat_signExtend, BitVec.toNat_setWidth,
    Nat.shiftLeft_eq, Nat.shiftLeft_eq]
  split_ifs <;> omega

theorem signedImm_toNat (x : Imm) : (signedImm x).toNat = if x.toNat < 0x8000 then x.toNat else x.toNat + 0xFFFF0000 := by
  have hx := x.isLt
  have hmsb := BitVec.msb_eq_decide x
  rw [signedImm, BitVec.toNat_signExtend, BitVec.toNat_setWidth, hmsb]
  simp only [decide_eq_true_eq]
  split_ifs <;> omega

/-- The sum of rule R167: the high half, one more where the low half is negative, and the sign-extended low half. -/
theorem high_add_low (high low : Imm) :
    signedImm (if low.toNat < 0x8000 then high else high + 1) <<< 15 <<< 1 + signedImm low = high ++ low := by
  have hh := high.isLt
  have hl := low.isLt
  apply BitVec.eq_of_toNat_eq
  rw [BitVec.toNat_add, signedImm_shifted_toNat, signedImm_toNat, BitVec.toNat_append,
    ← Nat.shiftLeft_add_eq_or_of_lt hl, Nat.shiftLeft_eq]
  split_ifs
  · omega
  · have hone : (1 : Imm).toNat = 1 := rfl
    rw [BitVec.toNat_add, hone]
    omega

/-- Settles O23: the value of the register is followed through the four instructions. -/
theorem fourInstructionsBuildAnyConstant : Obligations.FourInstructionsBuildAnyConstant := by
  intro rd high low s hw high'
  obtain ⟨t, ht, htw⟩ := writeResult_next rd (alu .or (s.readReg 0) (signedImm high')) s
  obtain ⟨u, hu, huw⟩ := writeResult_next rd (shifter .sll (t.readReg rd) 15) t
  obtain ⟨v, hv, hvw⟩ := writeResult_next rd (shifter .sll (u.readReg rd) 1) u
  obtain ⟨z, hz, hzw⟩ := writeResult_next rd (alu .add (v.readReg rd) (signedImm low)) v
  refine ⟨t, u, v, z, ht, hu, hv, hz, ?_⟩
  have hori : t.readReg rd = signedImm high' := by
    rw [htw.register.written hw, readReg_zero, alu]
    exact BitVec.zero_or
  have hsll : u.readReg rd = signedImm high' <<< 15 := by rw [huw.register.written hw, hori]; rfl
  have hsll' : v.readReg rd = signedImm high' <<< 15 <<< 1 := by rw [hvw.register.written hw, hsll]; rfl
  rw [hzw.register.written hw, hsll']
  exact high_add_low high low

/-! ## Load and store -/

theorem exec_sw_inRange {rd rs : RegNum} {imm : Imm} {s : State}
    (h : (effectiveAddr (s.readReg rs) imm).toNat < s.params.dmemWords) :
    ∃ t, exec (.sw rd rs imm) s = .next t ∧ Stores (effectiveAddr (s.readReg rs) imm).toNat (s.readReg rd) s t := by
  have hstore := store_eq_some.2 (And.intro h (rfl : s.setDmem (s.dmem.write _ (s.readReg rd)) = _))
  refine ⟨_, ?_, store_completeAt_stores s _ _⟩
  simp only [exec, execSw, hstore]
  rfl

theorem exec_sw_outOfRange {rd rs : RegNum} {imm : Imm} {s : State}
    (h : s.params.dmemWords ≤ (effectiveAddr (s.readReg rs) imm).toNat) :
    exec (.sw rd rs imm) s = .refused .dataAddressOutOfRange := by
  simp only [exec, execSw, store_eq_none.2 h]

theorem exec_lw_inRange {rd rs : RegNum} {imm : Imm} {s : State}
    (h : (effectiveAddr (s.readReg rs) imm).toNat < s.params.dmemWords) :
    ∃ t, exec (.lw rd rs imm) s = .next t ∧
      Writes rd (s.dataWord (effectiveAddr (s.readReg rs) imm).toNat) (s.pc + 1) s t :=
  writes_of_exec (by simp only [exec, execLw, load_eq_some.2 ⟨h, rfl⟩]) rfl

theorem exec_lw_outOfRange {rd rs : RegNum} {imm : Imm} {s : State}
    (h : s.params.dmemWords ≤ (effectiveAddr (s.readReg rs) imm).toNat) :
    exec (.lw rd rs imm) s = .refused .dataAddressOutOfRange := by
  simp only [exec, execLw, load_eq_none.2 h]

/-- A word that stands in the data memory is what a load reads (rule R66). -/
theorem dataWord_of_read {s : State} {a : Nat} {v : Word} (h : s.dmem.read a = some v) : s.dataWord a = v := by
  rw [State.dataWord, h, Option.getD_some]

/-- Settles O24: by whether the address is in range. -/
theorem storeWordResult : Obligations.StoreWordResult := by
  intro rd rs imm s ea
  refine ⟨?_, exec_sw_inRange, exec_sw_outOfRange⟩
  have hea : ea = s.readReg rs + signedImm imm := rfl
  rw [hea, BitVec.ofInt_add, BitVec.ofInt_natCast, BitVec.ofNat_toNat, BitVec.setWidth_eq, ← signedImm_eq_ofInt]

/-- Settles O25: by whether the address is in range. -/
theorem loadWordResult : Obligations.LoadWordResult := fun _ _ _ _ => ⟨exec_lw_inRange, exec_lw_outOfRange⟩

/-- A load right after a store to its address (rule R72). -/
theorem exec_lw_after_sw {rd rs rd' : RegNum} {imm : Imm} {s : State} (hrs : rs ≠ 62)
    (h : (effectiveAddr (s.readReg rs) imm).toNat < s.params.dmemWords) :
    ∃ t u, exec (.sw rd rs imm) s = .next t ∧ exec (.lw rd' rs imm) t = .next u ∧
      Stores (effectiveAddr (s.readReg rs) imm).toNat (s.readReg rd) s t ∧
      Writes rd' (s.readReg rd) (t.pc + 1) t u := by
  obtain ⟨t, ht, hstores⟩ := exec_sw_inRange (rd := rd) h
  have hbase := hstores.register.registers rs hrs
  have hrange : (effectiveAddr (t.readReg rs) imm).toNat < t.params.dmemWords := by
    rw [hbase, hstores.rest.params]
    exact h
  obtain ⟨u, hu, hwrites⟩ := exec_lw_inRange (rd := rd') hrange
  rw [hbase, dataWord_of_read hstores.stored] at hwrites
  exact ⟨t, u, ht, hu, hstores, hwrites⟩

/-- Settles O13: the store leaves the base register alone, so the load has its address. -/
theorem loadAfterStoreDeliversTheWord : Obligations.LoadAfterStoreDeliversTheWord := by
  intro rd rs rd' imm s hrs h
  obtain ⟨t, u, ht, hu, -, hwrites⟩ := exec_lw_after_sw hrs h
  exact ⟨t, u, ht, hu, hwrites⟩

theorem effectiveAddr_zero (x : Word) : effectiveAddr x 0 = x := by
  have h : signedImm 0 = 0 := by decide
  rw [effectiveAddr, h]
  exact BitVec.add_zero x

/-- Settles O26: the register 51 is `sp`; the pushed word is read back from the address it was stored at. -/
theorem pushThenPopMovesTheWord : Obligations.PushThenPopMovesTheWord := by
  intro x y s hx hx62 hy hysp hlow hhigh
  have hsp : Writable 51 := by decide
  obtain ⟨t, ht, hpush⟩ := writeResult_next 51 (alu .add (s.readReg 51) (signedImm 0xFFFF)) s
  have hptr : t.readReg 51 = s.readReg 51 - 1 := by
    have hminus : signedImm 0xFFFF = -1 := by decide
    rw [hpush.register.written hsp, alu, hminus, BitVec.sub_eq_add_neg]
  have hrange : (effectiveAddr (t.readReg 51) 0).toNat < t.params.dmemWords := by
    rw [effectiveAddr_zero, hptr, hpush.rest.params]
    have : (s.readReg 51 - 1).toNat = (s.readReg 51).toNat - 1 := by bv_omega
    omega
  obtain ⟨u, v, hu, hv, hstores, hloads⟩ := exec_lw_after_sw (rd := x) (rd' := y) (by decide) hrange
  obtain ⟨z, hz, hpop⟩ := writeResult_next 51 (alu .add (v.readReg 51) (signedImm 1)) v
  have hy62 : y ≠ 62 := fun e => by rw [e] at hy; exact absurd hy (by decide)
  refine ⟨t, u, v, z, ht, hu, hv, hz, ?_, ?_⟩
  · calc z.readReg y = v.readReg y := hpop.register.others y hysp hy62 fun e => absurd e (by decide)
      _ = t.readReg x := hloads.register.written hy
      _ = s.readReg x := hpush.register.others x hx hx62 fun e => absurd e (by decide)
  · have hplus : signedImm 1 = 1 := by decide
    calc z.readReg 51 = v.readReg 51 + 1 := by rw [hpop.register.written hsp, alu, hplus]
      _ = u.readReg 51 + 1 := by
        rw [hloads.register.others 51 (Ne.symm hysp) (by decide) fun _ => by decide]
      _ = t.readReg 51 + 1 := by rw [hstores.register.registers 51 (by decide)]
      _ = s.readReg 51 := by rw [hptr, BitVec.sub_add_cancel]

/-! ## Control transfer -/

/-- Bit 31 of the wrapped difference (rule R180, decision D16). -/
theorem alu_sub_msb (a b : Word) :
    (alu .sub a b).msb = true ↔ 2 ^ 31 ≤ (a.toNat + 2 ^ 32 - b.toNat) % 2 ^ 32 := by
  rw [BitVec.msb_eq_decide, alu_sub_toNat, decide_eq_true_eq]

/-- Settles O27: by `alu_sub_msb`. -/
theorem branchIfLessResult : Obligations.BranchIfLessResult := by
  intro rd rs target s
  exact goesTo_of_exec rfl (if_congr (alu_sub_msb _ _) rfl rfl)

/-- Bit 31 of the wrapped difference against the signed comparison: the true difference is off by 2^32 when it does not
fit. -/
theorem alu_sub_msb_signed (a b : Word) :
    (-2 ^ 31 ≤ a.toInt - b.toInt ∧ a.toInt - b.toInt < 2 ^ 31 → ((alu .sub a b).msb = true ↔ a.toInt < b.toInt)) ∧
    (¬(-2 ^ 31 ≤ a.toInt - b.toInt ∧ a.toInt - b.toInt < 2 ^ 31) →
      ((alu .sub a b).msb = true ↔ ¬a.toInt < b.toInt)) := by
  have ha := a.isLt
  have hb := b.isLt
  rw [alu_sub_msb, BitVec.toInt_eq_toNat_cond, BitVec.toInt_eq_toNat_cond]
  constructor <;> split_ifs <;> omega

/-- Settles O28: by `alu_sub_msb_signed`. -/
theorem branchIfLessIsSignedUnlessItOverflows : Obligations.BranchIfLessIsSignedUnlessItOverflows := by
  intro rd rs target s a b
  obtain ⟨hfits, hoverflows⟩ := alu_sub_msb_signed (s.readReg rd) (s.readReg rs)
  refine ⟨fun h => ⟨_, rfl, if_congr (hfits h) rfl rfl⟩, fun h => ⟨_, rfl, ?_⟩⟩
  exact (if_congr (hoverflows h) rfl rfl).trans (ite_not ..)

/-- Two words are equal exactly when their wrapped difference is 0 (rule R181). -/
theorem eq_iff_wrapped_sub_eq_zero (a b : Word) : a = b ↔ (a.toNat + 2 ^ 32 - b.toNat) % 2 ^ 32 = 0 := by
  have ha := a.isLt
  have hb := b.isLt
  rw [← BitVec.toNat_inj]
  omega

/-- Settles O29: by `eq_iff_wrapped_sub_eq_zero`. -/
theorem branchIfEqualResult : Obligations.BranchIfEqualResult := by
  intro rd rs target s
  exact goesTo_of_exec rfl (if_congr (eq_iff_wrapped_sub_eq_zero _ _) rfl rfl)

/-- Settles O30: the destination field and the unused bits are the twelve zeros. -/
theorem jumpResult : Obligations.JumpResult := by
  intro target s
  have hzeros : 0x1#4 ++ 0#6 ++ 0#6 = 0x1#4 ++ 0#12 := by decide
  exact ⟨congrArg (· ++ target) hzeros, goesTo_of_exec rfl rfl⟩

/-- Settles O31: the link is `State.nextPc` as a word. -/
theorem jumpAndLinkResult : Obligations.JumpAndLinkResult := by
  intro rd target s
  have hlink : s.nextPc.setWidth 32 = BitVec.ofNat 32 ((s.pc.toNat + 1) % 65536) := by
    apply BitVec.eq_of_toNat_eq
    rw [BitVec.toNat_setWidth, State.nextPc, BitVec.toNat_add, BitVec.toNat_ofNat]
    rfl
  exact ⟨_, rfl, hlink ▸ writeReg_completeAt_writes s rd _ target⟩

/-- Settles O32: by whether the register jumped to holds an address. -/
theorem jumpRegisterWriteImmediateResult : Obligations.JumpRegisterWriteImmediateResult := by
  intro rd rs imm s
  refine ⟨fun h => ?_, fun h => ?_⟩
  · have haddr : addrOf (s.readReg rs) = some (BitVec.ofNat 16 (s.readReg rs).toNat) :=
      addrOf_eq_some.2 ⟨h, BitVec.ofNat_toNat ..⟩
    refine ⟨_, ?_, writeReg_completeAt_writes s rd _ _⟩
    simp only [exec, execJriw, haddr, signedImm_eq_ofInt]
  · simp only [exec, execJriw, addrOf_eq_none.2 h]

end Sys2Proof.Machine

/-! PROOFS. The statements that compare two runs of one instruction: which memories an instruction reaches (rule R63)
and what a program can see of the environment (rule R246 (e)); and the ports, the read-only registers and the end of a
run. One lemma, `exec_related`, goes through the instructions for all of them. -/

namespace Sys2Proof.Machine

open Sys2Proof Sys2Proof.Config

/-! ## One instruction on two states -/

/-- The two answers are the same stop, or next states that `R` relates. -/
def Related (R : State → State → Prop) : Result → Result → Prop
  | .next s, .next t => R s t
  | .fault a, .fault b => a = b
  | .refused a, .refused b => a = b
  | _, _ => False

theorem sameAnswer_iff_related (x y : Result) : SameAnswer x y ↔ Related SameToProgram x y := by
  cases x <;> cases y <;> exact Iff.rfl

theorem eq_mapNext_iff_related (f : State → State) (x y : Result) :
    y = mapNext f x ↔ Related (fun a b => b = f a) x y := by
  cases x <;> cases y <;> simp [Related, mapNext, eq_comm]

/-- What makes the instruction `i` answer the same on `s` and `t`, up to `R`: it reads the same, and `R` holds of the
two states after each of the ways an instruction can complete. -/
structure Parallel (R : State → State → Prop) (i : Instr) (s t : State) : Prop where
  reads : ∀ r ∈ sourceRegisters i, t.readReg r = s.readReg r
  pc : t.pc = s.pc
  params : t.params = s.params
  loads : ∀ rd rs imm, i = .lw rd rs imm → t.dmem = s.dmem
  write : ∀ rd v a, R ((s.writeReg rd v).completeAt a) ((t.writeReg rd v).completeAt a)
  store : ∀ rd rs imm, i = .sw rd rs imm → ∀ ea v a,
    R ((s.setDmem (s.dmem.write ea v)).completeAt a) ((t.setDmem (t.dmem.write ea v)).completeAt a)
  go : ∀ a, R (s.completeAt a) (t.completeAt a)

section
variable {R : State → State → Prop} {i : Instr} {s t : State}

theorem Parallel.nextPc (h : Parallel R i s t) : t.nextPc = s.nextPc := by rw [State.nextPc, State.nextPc, h.pc]

theorem Parallel.admits (h : Parallel R i s t) (ea : Word) : t.admits ea = s.admits ea := by
  rw [State.admits, State.admits, h.params]

theorem Parallel.writeResult (h : Parallel R i s t) (rd : RegNum) (v : Word) :
    Related R (writeResult rd v s) (writeResult rd v t) := by
  rw [Machine.writeResult, Machine.writeResult, h.nextPc]
  exact h.write rd v _

/-- An instruction answers the same on two states that run in parallel. -/
theorem exec_related (h : Parallel R i s t) : Related R (exec i s) (exec i t) := by
  have hread := h.reads
  cases i
  case j target => exact h.go target
  case blt rd rs target | beq rd rs target =>
    simp only [exec, execBlt, execBeq, hread rd (by simp [sourceRegisters]), hread rs (by simp [sourceRegisters]),
      h.nextPc]
    exact h.go _
  case sw rd rs imm =>
    simp only [exec, execSw, hread rd (by simp [sourceRegisters]), hread rs (by simp [sourceRegisters]), h.nextPc,
      State.store, h.admits]
    cases s.admits (effectiveAddr (s.readReg rs) imm) with
    | true => exact h.store rd rs imm rfl _ _ _
    | false => exact rfl
  case lw rd rs imm =>
    simp only [exec, execLw, hread rs (by simp [sourceRegisters]), State.load, State.dataWord, h.admits,
      h.loads rd rs imm rfl]
    cases s.admits (effectiveAddr (s.readReg rs) imm) with
    | true => exact h.writeResult rd _
    | false => exact rfl
  case jriw rd rs imm =>
    simp only [exec, execJriw, hread rs (by simp [sourceRegisters])]
    cases addrOf (s.readReg rs) with
    | some a => exact h.write rd _ a
    | none => exact rfl
  case jal rd target =>
    simp only [exec, execJal, h.nextPc]
    exact h.write rd _ target
  -- Every other instruction writes a function of its sources to `rd` and goes on.
  all_goals
    simp only [sourceRegisters, List.forall_mem_cons] at hread
    simp only [exec, execAdd, execAnd, execOr, execXor, execNand, execNor, execSub, execNeg, execInc, execMult, execDiv,
      execRot, execSll, execSrl, execSra, execAddi, execAndi, execOri, execXori, execNandi, execNori, execMulti,
      execDivi, hread]
    exact h.writeResult _ _

end

/-! ## The memories -/

section
variable (s : State) (m : Memory)

/-- A register write carries either memory along. -/
theorem writeReg_setMemory (rd : RegNum) (v : Word) :
    (s.setDmem m).writeReg rd v = (s.writeReg rd v).setDmem m ∧
      (s.setImem m).writeReg rd v = (s.writeReg rd v).setImem m := by
  unfold State.writeReg
  cases classify rd with
  | rc =>
    simp only [State.writeRc]
    split_ifs <;> exact ⟨rfl, rfl⟩
  | _ => exact ⟨rfl, rfl⟩

/-- An instruction other than `lw` and `sw` carries the data memory along (rule R63). -/
theorem exec_setDmem {i : Instr} (h : ∀ rd rs imm, i ≠ .lw rd rs imm ∧ i ≠ .sw rd rs imm) :
    exec i (s.setDmem m) = mapNext (fun t => t.setDmem m) (exec i s) := by
  rw [eq_mapNext_iff_related]
  exact exec_related
    { reads := fun _ _ => rfl
      pc := rfl
      params := rfl
      loads := fun rd rs imm e => absurd e (h rd rs imm).1
      write := fun rd v a => by rw [(writeReg_setMemory s m rd v).1]; rfl
      store := fun rd rs imm e => absurd e (h rd rs imm).2
      go := fun _ => rfl }

/-- Every instruction carries the instruction memory along (rules R61, R63). -/
theorem exec_setImem (i : Instr) : exec i (s.setImem m) = mapNext (fun t => t.setImem m) (exec i s) := by
  rw [eq_mapNext_iff_related]
  exact exec_related
    { reads := fun _ _ => rfl
      pc := rfl
      params := rfl
      loads := fun _ _ _ _ => rfl
      write := fun rd v a => by rw [(writeReg_setMemory s m rd v).2]; rfl
      store := fun _ _ _ _ _ _ _ => rfl
      go := fun _ => rfl }

/-- The entry reads a register and writes `ipc`, `INS` and `pc`. -/
theorem enterInterrupt_setMemories (src : Source) (n : Memory) :
    enterInterrupt src ((s.setDmem m).setImem n) =
      mapNext (fun t => (t.setDmem m).setImem n) (enterInterrupt src s) := by
  have hread : ((s.setDmem m).setImem n).readReg (vectorReg src) = s.readReg (vectorReg src) := rfl
  unfold enterInterrupt
  rw [hread]
  cases addrOf (s.readReg (vectorReg src)) <;> rfl

end

/-- Settles O12: the load and the store by their results, everything else by `exec_related` and the entry's reads. -/
theorem onlyLoadAndStoreReachDataMemory : Obligations.OnlyLoadAndStoreReachDataMemory := by
  refine ⟨fun s m h => if_pos h, fun rd rs imm s v h hread => ?_, fun rd rs imm s h => exec_sw_inRange h,
    fun i s m h => ⟨exec_setDmem s m h, fun t ht => ?_⟩, fun i s m => exec_setImem s m i,
    fun src s m n => enterInterrupt_setMemories s m src n⟩
  · obtain ⟨t, ht, hwrites⟩ := exec_lw_inRange (rd := rd) h
    exact ⟨t, ht, dataWord_of_read hread ▸ hwrites⟩
  · -- Putting its own data memory into `s` changes nothing, so `t` is `t` with that memory.
    have hsame : exec i s = mapNext (fun t => t.setDmem s.dmem) (exec i s) := exec_setDmem s s.dmem h
    rw [ht] at hsame
    have hmemory : t = t.setDmem s.dmem := Host.Outcome.next.inj (hsame.trans rfl)
    exact (congrArg State.dmem hmemory).trans (State.setDmem_dmem t s.dmem)

/-! ## The environment -/

section
variable {s t : State} (h : SameToProgram s t)
include h

theorem SameToProgram.readReg {r : RegNum} (h1 : r ≠ 60) (h2 : r ≠ 61) (h3 : r ≠ 62) :
    t.readReg r = s.readReg r :=
  readReg_congr_of_ne h.regs h.op h.rc (.inl h1) (.inl h2) (.inl h3) (.inr h.ipc)

theorem SameToProgram.completeAt (a : Addr) : SameToProgram (s.completeAt a) (t.completeAt a) :=
  ⟨h.regs, h.op, h.rc, h.ipc, rfl, h.ins, h.dmem, h.imem, h.outputs, h.params⟩

theorem SameToProgram.takeTurn : SameToProgram s.takeTurn t.takeTurn :=
  ⟨h.regs, h.op, h.rc, h.ipc, h.pc, h.ins, h.dmem, h.imem, h.outputs, h.params⟩

theorem SameToProgram.setDmem (m : Memory) : SameToProgram (s.setDmem m) (t.setDmem m) :=
  ⟨h.regs, h.op, h.rc, h.ipc, h.pc, h.ins, rfl, h.imem, h.outputs, h.params⟩

theorem SameToProgram.writeReg (rd : RegNum) (v : Word) : SameToProgram (s.writeReg rd v) (t.writeReg rd v) := by
  obtain ⟨hipc, hpc, hdmem, himem, -, -, -, -, hparams⟩ := writeReg_frame s rd v
  obtain ⟨hipc', hpc', hdmem', himem', -, -, -, -, hparams'⟩ := writeReg_frame t rd v
  have hregs : (t.writeReg rd v).regs = (s.writeReg rd v).regs := by
    unfold State.writeReg
    cases classify rd with
    | stored i => rw [State.setStored_regs, State.setStored_regs, h.regs]
    | rc => rw [(writeRc_frame t v).1, (writeRc_frame s v).1, h.regs]
    | _ => exact h.regs
  constructor
  case regs => exact hregs
  case op => rw [writeReg_op_eq, writeReg_op_eq, h.op]
  case rc => rw [writeReg_rc_eq, writeReg_rc_eq, h.rc]
  case ipc => rw [hipc, hipc', h.ipc]
  case pc => rw [hpc, hpc', h.pc]
  case ins => rw [writeReg_ins, writeReg_ins, h.ins]
  case dmem => rw [hdmem, hdmem', h.dmem]
  case imem => rw [himem, himem', h.imem]
  case outputs =>
    rw [(writeReg_registerWritten s rd v).outputs, (writeReg_registerWritten t rd v).outputs, h.outputs]
  case params => rw [hparams, hparams', h.params]

/-- An instruction that does not look at the environment does the same on both. -/
theorem SameToProgram.exec {i : Instr} (hi : IgnoresEnvironment i) :
    Related SameToProgram (Machine.exec i s) (Machine.exec i t) := by
  obtain ⟨h60, h61, h62⟩ := hi
  exact exec_related
    { reads := fun r hr => h.readReg (fun e => h60 (e ▸ hr)) (fun e => h61 (e ▸ hr)) (fun e => h62 (e ▸ hr))
      pc := h.pc
      params := h.params
      loads := fun _ _ _ _ => h.dmem
      write := fun rd v a => (h.writeReg rd v).completeAt a
      store := fun _ _ _ _ ea v a => by rw [h.dmem]; exact (h.setDmem _).completeAt a
      go := fun a => h.completeAt a }

theorem SameToProgram.fetch : t.fetch = s.fetch := by rw [State.fetch, State.fetch, h.pc, h.params, h.imem]

theorem SameToProgram.fetchAndExecute
    (hi : ∀ w i, s.fetch = some w → decode w = .ok i → IgnoresEnvironment i) :
    Related SameToProgram (Machine.fetchAndExecute s) (Machine.fetchAndExecute t) := by
  unfold Machine.fetchAndExecute
  rw [h.fetch]
  cases hw : s.fetch with
  | none => exact rfl
  | some w =>
    cases hd : decode w with
    | error why => simp only [hd, Related]
    | ok i =>
      simp only [hd]
      exact h.exec (hi w i hw hd)

end

/-- Settles O45: an event moves only what `SameToProgram` leaves out, and an instruction that does not read it runs in
parallel on the two states. -/
theorem environmentIsInvisible : Obligations.EnvironmentIsInvisible := by
  refine ⟨fun s e hturn => ⟨_, step_of_event hturn, ?_⟩, fun s t h hs ht hdisabled hi => ?_⟩
  · obtain ⟨v, w, p, he⟩ := applyEvent_eq s.takeTurn e
    rw [he]
    exact ⟨rfl, rfl, rfl, rfl, rfl, rfl, rfl, rfl, rfl, rfl⟩
  · have hdisabled' : t.rc.extractLsb' 4 4 = 0#4 := h.rc ▸ hdisabled
    rw [sameAnswer_iff_related, step_of_unselected hs (selected_of_disabled hdisabled),
      step_of_unselected ht (selected_of_disabled hdisabled')]
    exact h.takeTurn.fetchAndExecute hi

/-! ## The end of a run -/

/-- Settles O49: an event leaves `pc`, the program and `rc` alone, and the core's turn runs the jump to itself. -/
theorem endedRunStaysEnded : Obligations.EndedRunStaysEnded := by
  intro a s hended
  obtain ⟨hpc, hjump, hdisabled⟩ := hended
  cases hturn : s.turn with
  | env e =>
    have hsame := applyEvent_sameToCore s.takeTurn e
    have hrc := hsame.registers 59 (by decide) (by decide)
    have hfetch : (s.takeTurn.applyEvent e).fetch = s.fetch := by
      rw [State.fetch, State.fetch, hsame.pc, hsame.params, hsame.imem]
      rfl
    rw [readReg_rc, readReg_rc] at hrc
    refine ⟨_, step_of_event hturn, ⟨hsame.pc.trans hpc, hfetch.trans hjump, ?_⟩, hsame.outputs, hsame.data,
      fun r hr => ?_⟩
    · rw [hrc]
      exact hdisabled
    · have hne : ∀ k : RegNum, 60 ≤ k.toNat ∧ k ≠ 63 → r ≠ k := by
        rintro k ⟨hk, hk63⟩ rfl
        exact hr.elim (by omega) hk63
      exact hsame.registers r (hne 60 (by decide)) (hne 61 (by decide))
  | core =>
    have hdecode : decode (encode (.j a)) = .ok (.j a) := decodeOfEncodeIsIdentity (.j a) ((wellFormed_iff _).2 nofun)
    have hfetch := fetch_eq_some.1 hjump
    have hrun := (stepRunsTheDecodedInstruction s _ _ hturn (selected_of_disabled hdisabled) hfetch.1 hfetch.2
      hdecode).1
    refine ⟨s.takeTurn.completeAt a, hrun, ⟨rfl, ?_, hdisabled⟩, rfl, fun _ => rfl, fun r hr => ?_⟩
    · rw [← hpc] at hjump ⊢
      exact hjump
    · have h62 : r ≠ 62 := fun e => by rw [e] at hr; exact absurd hr (by decide)
      exact completeAt_readReg s.takeTurn a r h62

/-! ## The ports and the read-only registers -/

/-- A write to a read-only register is dropped (rule R25). -/
theorem writeReg_readOnly {r : RegNum} (h : ¬Writable r) (s : State) (v : Word) : s.writeReg r v = s := by
  obtain ⟨-, hop, hrc, -⟩ := classify_special r
  unfold State.writeReg
  cases hc : classify r with
  | stored i =>
    have hn := (classify_stored_iff r i).1 hc
    exact absurd ⟨by omega, by omega⟩ h
  | op => exact absurd (hop.1 hc ▸ by decide) h
  | rc => exact absurd (hrc.1 hc ▸ by decide) h
  | _ => rfl

/-- Settles O50: the write is dropped, so the instruction does no more than go on. -/
theorem readOnlyRegistersKeepTheirValues : Obligations.ReadOnlyRegistersKeepTheirValues := by
  refine ⟨fun s => ⟨readReg_zero s, readReg_tmr1 s, readReg_tmr2 s, readReg_ip s, ?_⟩, fun s r hr =>
    ⟨writeReg_readOnly hr s, fun i t hdest hexec => ?_⟩⟩
  · rw [readReg_ipc]
    exact BitVec.toNat_setWidth_of_le (by decide)
  · obtain ⟨rd, v, a, hd, hnext⟩ | ⟨-, -, hd, -, -⟩ | ⟨-, hd, -⟩ := exec_eq_next hexec <;> rw [hdest] at hd <;> cases hd
    rw [writeReg_readOnly hr] at hnext
    have hgoes := completeAt_goesTo s a
    rw [hnext]
    exact ⟨hgoes.register.registers, hgoes.register.devices, hgoes.register.outputs, hgoes.data⟩

/-- Settles O44: every way to complete takes one sample, and both reads of `xor` see it. -/
theorem inputPortIsOneSampleAnInstruction : Obligations.InputPortIsOneSampleAnInstruction := by
  refine ⟨readReg_ip, fun i s t h => ?_, fun rd s => writes_of_exec rfl BitVec.xor_self⟩
  obtain ⟨rd, v, a, -, rfl⟩ | ⟨ea, v, -, -, rfl⟩ | ⟨a, -, rfl⟩ := exec_eq_next h
  · have hrest := (writeReg_completeAt_writes s rd v a).rest
    exact ⟨hrest.portIn, hrest.portDraws⟩
  · exact ⟨rfl, rfl⟩
  · exact ⟨rfl, rfl⟩

end Sys2Proof.Machine
